-- ==== Sys2Proof/Word.lean ====
section
/-! DEFINITION. The value types of the emuai64 CORE: 32-bit words, bytes and register indices (R5, R8, R13). -/

namespace Sys2Proof

/-- A 32-bit word: a general register, the program counter, a virtual address or an instruction word (R5: `XLEN`,
`PCLEN` and `ILEN` are all 32). Addition of two words is the `+32` of R9, modulo 2^32. -/
abbrev Word := BitVec 32

/-- One byte of RAM (R19) or of an image (R20). -/
abbrev Byte := BitVec 8

/-- The index of a general register, 0 to 31 (R13). -/
abbrev RegIndex := Fin 32

end Sys2Proof
end

