-- ==== Sys2Proof/Syntax.lean ====
section
/-! DEFINITION. The instructions: one constructor per row of spec/opcode_table.json, with the operands `decode` of R54
gives them. -/

namespace Sys2Proof

/-- The result of decoding (R54). Every register index and every immediate is legal (R14), so only `undef` has a
well-formedness condition (`Instr.wf`). -/
inductive Instr where
  /-- ADDI (R72): `addi rt, rs, imm`. -/
  | addi (rs rt : RegIndex) (imm : BitVec 16)
  /-- LW (R75): `lw rt, imm(rs)`. -/
  | lw (rs rt : RegIndex) (imm : BitVec 16)
  /-- ADD (R73): `add rd, rs, rt`. `shamt` is ignored by the decoder (R57), so it is no operand. -/
  | add (rs rt rd : RegIndex)
  /-- UNDEF (R77): any word outside the three patterns; the word is kept because the strict-mode fault carries it (R88). -/
  | undef (word : Word)
  deriving DecidableEq, Repr

end Sys2Proof
end

