-- ==== Sys2Proof/WellFormed.lean ====
section
/-! DEFINITION. Which instruction terms stand for an instruction: the mask and match pairs of R54, and the one condition
they put on `Instr`. -/

namespace Sys2Proof

/-- The ADDI row: mask 0xFC000000, match 0x20000000 (R54). -/
def matchesAddi (w : Word) : Bool := (w &&& 0xFC000000#32) == 0x20000000#32

/-- The LW row: mask 0xFC000000, match 0x8C000000 (R54). -/
def matchesLw (w : Word) : Bool := (w &&& 0xFC000000#32) == 0x8C000000#32

/-- The ADD row: mask 0xFC00003F, match 0x00000020 (R54). -/
def matchesAdd (w : Word) : Bool := (w &&& 0xFC00003F#32) == 0x00000020#32

/-- A word of the catch-all row: none of the three defined patterns matches it (R54, R77). -/
def matchesUndef (w : Word) : Bool := !matchesAddi w && !matchesLw w && !matchesAdd w

/-- ADDI, LW and ADD are well formed with any operands (R14); `undef w` only for a word of the catch-all row (R77). -/
def Instr.wf : Instr → Bool
  | .addi _ _ _ => true
  | .lw _ _ _ => true
  | .add _ _ _ => true
  | .undef w => matchesUndef w

end Sys2Proof
end

