-- ==== Sys2Proof/Decode.lean ====
section
/-! DEFINITION. Instruction words and bytes to instructions and back: the field positions of R49 (all of them in this one
file), the big-endian byte order of R34 and R48, the decoder of R54, and the encoder written from R50, R51 and R60. -/

namespace Sys2Proof

/-! ### Fields of an instruction word (R11, R49). PRESUMED, log entry 4: the spec takes every position but those of `op`
and `funct` from the standard MIPS layout. -/

/-- `op = instr[31:26]` (R11). -/
def opField (w : Word) : BitVec 6 := w.extractLsb' 26 6

/-- `rs = instr[25:21]` (R11). -/
def rsField (w : Word) : RegIndex := (w.extractLsb' 21 5).toFin

/-- `rt = instr[20:16]` (R11). -/
def rtField (w : Word) : RegIndex := (w.extractLsb' 16 5).toFin

/-- `rd = instr[15:11]` (R11). -/
def rdField (w : Word) : RegIndex := (w.extractLsb' 11 5).toFin

/-- `shamt = instr[10:6]` (R11); the decoder does not read it (R57). -/
def shamtField (w : Word) : BitVec 5 := w.extractLsb' 6 5

/-- `funct = instr[5:0]` (R11). -/
def functField (w : Word) : BitVec 6 := w.extractLsb' 0 6

/-- `imm = instr[15:0]` (R11). -/
def immField (w : Word) : BitVec 16 := w.extractLsb' 0 16

/-- `target = instr[25:0]` of the J format (R52); the decoder never extracts it. -/
def targetField (w : Word) : BitVec 26 := w.extractLsb' 0 26

/-! ### Byte order (R34) -/

/-- Four consecutive bytes as a word, the byte at the lowest address in bits 31:24 (R31, R34). -/
def wordOfBytes (b0 b1 b2 b3 : Byte) : Word := b0 ++ b1 ++ b2 ++ b3

/-- Byte `k` of a word in memory order: `v[31:24]` for 0 down to `v[7:0]` for 3 (R32, R34). -/
def wordByte (v : Word) (k : Nat) : Byte := v.extractLsb' (8 * (3 - k)) 8

/-- The four bytes of a word in memory order (R34). -/
def wordBytes (v : Word) : List Byte := [wordByte v 0, wordByte v 1, wordByte v 2, wordByte v 3]

/-! ### Decoding (R54) -/

/-- The decode function of R54, total on all 2^32 words: the first line that matches wins. -/
def decodeWord (w : Word) : Instr :=
  if opField w = 0x08#6 then .addi (rsField w) (rtField w) (immField w)
  else if opField w = 0x23#6 then .lw (rsField w) (rtField w) (immField w)
  else if opField w = 0x00#6 ∧ functField w = 0x20#6 then .add (rsField w) (rtField w) (rdField w)
  else .undef w

/-- Why a byte sequence holds no instruction. -/
inductive DecodeError where
  /-- Fewer than the four bytes every instruction has (R48, R59). Safe: `step` always decodes a whole word. -/
  | tooShort (available : Nat)
  deriving DecidableEq, Repr

/-- Decode the instruction at the head of a byte sequence; the length is always 4 (R59). -/
def decode : List Byte → Except DecodeError (Instr × List Byte)
  | b0 :: b1 :: b2 :: b3 :: rest => .ok (decodeWord (wordOfBytes b0 b1 b2 b3), rest)
  | bytes => .error (.tooShort bytes.length)

/-- The instruction read from the low `nbits` bits of `w`, laid out big-endian as the hardware stores it. -/
def decodeTableWord (nbits w : Nat) : Option Instr :=
  match decode (wordBytes (BitVec.ofNat 32 (w % 2 ^ nbits))) with
  | .ok (i, _) => some i
  | .error _ => none

/-! ### Encoding (R50, R51, R60) -/

/-- A register index as the 5-bit field that names it (R53). -/
def regBits (r : RegIndex) : BitVec 5 := BitVec.ofNat 5 r.val

/-- The word of an instruction: the I format for ADDI and LW (R51), the R format for ADD with `shamt` assembled as 0
(R50, R60), the word itself for UNDEF. -/
def encode : Instr → Word
  | .addi rs rt imm => 0x08#6 ++ regBits rs ++ regBits rt ++ imm
  | .lw rs rt imm => 0x23#6 ++ regBits rs ++ regBits rt ++ imm
  | .add rs rt rd => 0x00#6 ++ regBits rs ++ regBits rt ++ regBits rd ++ 0x00#5 ++ 0x20#6
  | .undef w => w

end Sys2Proof
end

