-- ==== Sys2Proof/Machine/Flags.lean ====
section
/-! DEFINITION. Flag computations: the hardware has none. It has no flags, condition codes or predicate registers (R21);
carry, overflow and signed overflow are recorded nowhere (R74). What a flag file would compute beside a sum is therefore
the sum alone. -/

namespace Sys2Proof.Machine

/-- The whole ALU: one 32-bit adder whose result is reduced modulo 2^32 (R9, R74). No carry or overflow is kept, and no
overflow exception exists (R86). It serves ADDI, ADD, the LW address and the `pc` advance (R74). -/
def add32 (a b : Word) : Word := a + b

end Sys2Proof.Machine
end

