-- ==== Sys2Proof/Config.lean ====
section
/-! DEFINITION. The parameters of a machine instance (R5, R27) and the constraints the spec puts on them. -/

namespace Sys2Proof

/-- The OPEN parameters of Table R5. They are fixed when an instance is created (R27): no step and no host operation
changes them. `ENTRY_PC` is not a field: the spec sets it equal to `KSEG_BASE` (R105), see `Machine.entryPc`. -/
structure Config where
  /-- `KSEG_BASE`: the virtual address that maps to physical offset 0 (R5, R29). -/
  ksegBase : Word
  /-- `MEM_SIZE`: the number of bytes of RAM (R5, R19). -/
  memSize : Nat
  /-- `RESET_VECTOR`: the `pc` of a machine with no image (R5, R107). -/
  resetVector : Word
  /-- `ZERO_REG_HARDWIRED`: whether register 0 always reads 0 (R5, R15). -/
  zeroRegHardwired : Bool
  /-- `STRICT_MODE`: whether an unsupported word faults instead of doing nothing (R5, R83, R88). -/
  strictMode : Bool
  deriving DecidableEq, Repr

/-- The constraints of Table R5: `MEM_SIZE >= 4096`, `KSEG_BASE + MEM_SIZE <= 2^32`, and `RESET_VECTOR != ENTRY_PC`
where `ENTRY_PC = KSEG_BASE` (R105). -/
def Config.wf (c : Config) : Bool :=
  decide (4096 ≤ c.memSize) && decide (c.ksegBase.toNat + c.memSize ≤ 2 ^ 32) && (c.resetVector != c.ksegBase)

/-- The values 95_test_vectors.md uses: the recommended `KSEG_BASE` and `RESET_VECTOR`, 8192 bytes of RAM, and the two
flags at their defaults, the reference behaviour. DESIGN CHOICE (log entry 2, unsafe): the spec leaves these open.
Nothing but `State.reset` and the tests rests on them. -/
def Config.reference : Config where
  ksegBase := 0x80000000#32
  memSize := 0x2000
  resetVector := 0xBFC00000#32
  zeroRegHardwired := false
  strictMode := false

end Sys2Proof
end

