-- ==== Sys2Proof/Machine/State.lean ====
section
/-! DEFINITION. The machine's state as plain data (R24), its two stop reasons, and the state after reset (R25, R101). -/

namespace Sys2Proof.Machine

/-- `MEM` (R19): the bytes of RAM by physical offset, as a list in canonical form. An offset that is not listed reads
0x00, the value every byte has after POWER_ON (R25). -/
abbrev Memory := List Host.Cell

/-- The canonical form: offsets strictly rising from `lo` on, and no listed byte equal to what an unlisted one reads as. -/
def Memory.wfFrom (lo : Nat) : Memory → Bool
  | [] => true
  | (a, b) :: rest => decide (lo ≤ a) && (b != 0#8) && Memory.wfFrom (a + 1) rest

/-- The memory is in canonical form, so equal memories are equal lists. -/
def Memory.wf (m : Memory) : Bool := Memory.wfFrom 0 m

/-- Every listed offset is below `size`: the array has `size` bytes (R19). -/
def Memory.within (size : Nat) (m : Memory) : Bool := m.all fun cell => decide (cell.1 < size)

/-- The state of a machine instance: the tuple of R24 and, beside it, the parameters the instance was created with (R27).
`cfg` is not architectural state: it stands here because a step takes no other argument (log entry 1). -/
structure State where
  /-- The parameters of R5, fixed for the instance (R27). -/
  cfg : Config
  /-- `x[0]` to `x[31]`, as stored (R13). Instructions go through `readGpr` and `writeGpr`, which treat register 0 (R15). -/
  regs : Vector Word 32
  /-- The program counter, a virtual address (R16). -/
  pc : Word
  /-- The cycle counter, an unbounded natural number (R18). -/
  cycle : Nat
  /-- RAM (R19). -/
  mem : Memory
  /-- The retained boot image (R20). -/
  image : Option (List Byte)
  deriving DecidableEq, Repr

/-- The faults of a step. The spec has exactly one (R84, R90). -/
inductive Fault where
  /-- `UnsupportedInstruction(pc, instr)` (R88): raised by UNDEF when `STRICT_MODE = true`, with the address and the word.
  The spec gives this fault, so it is no stop of the model's own: safe. The state stays as it was before the step. -/
  | unsupportedInstruction (pc : Word) (instr : Word)
  deriving DecidableEq, Repr

/-- Why the model gives no next state. -/
inductive Refusal where
  /-- An instruction without a meaning, by its mnemonic. No arm of `exec` uses it: every row is modelled. Safe. -/
  | notModelled (mnemonic : String)
  /-- `powerOn` with parameters that break the constraints of Table R5 (D2: such violations are refused). Safe. -/
  | parameterConstraint
  deriving DecidableEq, Repr

/-- The state R101 gives an instance created with parameters `c`: registers 0, `pc` at the reset vector, `cycle` 0,
`MEM` all zero bytes, no image. -/
def State.fresh (c : Config) : State where
  cfg := c
  regs := Vector.replicate 32 0#32
  pc := c.resetVector
  cycle := 0
  mem := []
  image := none

/-- The machine right after reset with no image (R25), for the reference parameters (log entry 2). -/
def State.reset : State := State.fresh Config.reference

end Sys2Proof.Machine
end

