-- ==== Sys2Proof/Machine/Ops.lean ====
section
/-! DEFINITION. The named operations over the state: field updates, RAM bytes, address translation and the two port
operations of the Memory component, the register file, the common phases of a step, and the strict-mode fault. -/

namespace Sys2Proof.Machine

/-! ### Fixed addresses and lengths -/

/-- `ENTRY_PC`, the `pc` after an image load. DEDUCED (log entry 3): the spec derives it equal to `KSEG_BASE` (R105, D4). -/
def entryPc (c : Config) : Word := c.ksegBase

/-- `BOOT_XFER_LEN`: how many image bytes the boot transfer copies (R5, R104). -/
def bootXferLen : Nat := 4096

/-! ### Field updates -/

def State.setRegs (s : State) (regs : Vector Word 32) : State := { s with regs := regs }
def State.setPc (s : State) (pc : Word) : State := { s with pc := pc }
def State.setCycle (s : State) (cycle : Nat) : State := { s with cycle := cycle }
def State.setMem (s : State) (mem : Memory) : State := { s with mem := mem }
def State.setImage (s : State) (image : Option (List Byte)) : State := { s with image := image }

/-! ### RAM bytes (R19) -/

/-- The byte at a physical offset; an unlisted one is 0x00 (R25). -/
def readByte : Memory → Nat → Byte
  | [], _ => 0#8
  | (k, b) :: rest, a => if k = a then b else readByte rest a

/-- Store one byte at a physical offset, keeping the canonical form. -/
def writeByte : Memory → Nat → Byte → Memory
  | [], a, v => if v = 0#8 then [] else [(a, v)]
  | (k, b) :: rest, a, v =>
    if a < k then (if v = 0#8 then (k, b) :: rest else (a, v) :: (k, b) :: rest)
    else if a = k then (if v = 0#8 then rest else (a, v) :: rest)
    else (k, b) :: writeByte rest a v

/-- Store consecutive bytes from offset `a` on, the first at `a`. -/
def writeBytes : Memory → Nat → List Byte → Memory
  | m, _, [] => m
  | m, a, b :: rest => writeBytes (writeByte m a b) (a + 1) rest

/-- The `n` consecutive bytes from offset `a` on. -/
def readBytes (m : Memory) : Nat → Nat → List Byte
  | _, 0 => []
  | a, n + 1 => readByte m a :: readBytes m (a + 1) n

/-! ### Address translation (R29, R30) -/

/-- `phys = vaddr - KSEG_BASE` on the integers, so that it is negative below the base (R29). -/
def phys (c : Config) (vaddr : Word) : Int := (vaddr.toNat : Int) - (c.ksegBase.toNat : Int)

/-- A word access at `vaddr` is in range exactly when `0 <= phys <= MEM_SIZE - 4` (R30). -/
def inRange (c : Config) (vaddr : Word) : Bool :=
  decide (0 ≤ phys c vaddr) && decide (phys c vaddr ≤ (c.memSize : Int) - 4)

/-- The physical offset of an in-range access, as an index of `MEM`. -/
def physIndex (c : Config) (vaddr : Word) : Nat := (phys c vaddr).toNat

/-! ### The two port operations (R31, R32) -/

/-- `MemRead(vaddr, 4)` (R31): the big-endian word at `phys`, or 0 out of range. No alignment is needed (R35), no
exception exists (R33), and the state is only read (R37). -/
def State.memRead (s : State) (vaddr : Word) : Word :=
  if inRange s.cfg vaddr then
    let a := physIndex s.cfg vaddr
    wordOfBytes (readByte s.mem a) (readByte s.mem (a + 1)) (readByte s.mem (a + 2)) (readByte s.mem (a + 3))
  else 0x00000000#32

/-- `MemWrite(vaddr, 4, v)` (R32): the four bytes of `v` stored big-endian at `phys`, or nothing out of range. -/
def State.memWrite (s : State) (vaddr v : Word) : State :=
  if inRange s.cfg vaddr then s.setMem (writeBytes s.mem (physIndex s.cfg vaddr) (wordBytes v)) else s

/-! ### The register file (R10, R13, R15) -/

/-- Whether register `i` is the hard-wired register 0 of this instance (R15). -/
def isHardwired (c : Config) (i : RegIndex) : Bool := c.zeroRegHardwired && i == 0

/-- The read `x[i]` (R10): 0 at all times for a hard-wired register 0, else the stored value (R15). -/
def State.readGpr (s : State) (i : RegIndex) : Word := if isHardwired s.cfg i then 0#32 else s.regs[i]

/-- The write `x[i] <- v` (R10): no effect on a hard-wired register 0 (R15). -/
def State.writeGpr (s : State) (i : RegIndex) (v : Word) : State :=
  if isHardwired s.cfg i then s else s.setRegs (s.regs.set i v)

/-! ### The common phases of a step (R62) -/

/-- Phase 1, fetch: `instr = MemRead(pc, 4)`; an out-of-range `pc` yields the word 0 and no error (R63). -/
def State.fetchWord (s : State) : Word := s.memRead s.pc

/-- Phase 4, PC advance: `pc <- pc +32 4`, unconditionally (R66). -/
def State.advancePc (s : State) : State := s.setPc (add32 s.pc 4#32)

/-- Phase 5, cycle increment: `cycle <- cycle + 1` (R67). -/
def State.countCycle (s : State) : State := s.setCycle (s.cycle + 1)

/-! ### The strict-mode fault (R88), the hardware's only exception. Nothing is saved, no mode changes and control goes
nowhere (R91), so there is no return from it either (R92). -/

/-- `raise UnsupportedInstruction(pc, instr)` (R88): the step ends with the fault, which carries the `pc` of the word and
the word; the state before the step is the state after it. -/
def raiseUnsupported (s : State) (instr : Word) : Host.Outcome State Fault Refusal :=
  .fault (.unsupportedInstruction s.pc instr)

end Sys2Proof.Machine
end

