-- ==== Sys2Proof/Machine/Operands.lean ====
section
/-! DEFINITION. The operand forms: a register, a sign-extended immediate, and base register plus offset, the only
addressing mode (R53, R76). -/

namespace Sys2Proof.Machine

/-- `sext_32(imm)` (R9): `imm` when bit 15 is 0, `imm + 0xFFFF0000` when it is 1. -/
def sext32 (imm : BitVec 16) : Word := imm.signExtend 32

/-- The address of LW: `x[rs] +32 sext_32(imm)`, wrapping modulo 2^32; the base register is not modified (R75, R76). -/
def State.effectiveAddress (s : State) (rs : RegIndex) (imm : BitVec 16) : Word := add32 (s.readGpr rs) (sext32 imm)

end Sys2Proof.Machine
end

