-- ==== Sys2Proof/Machine/Arithmetic.lean ====
section
/-! DEFINITION. The meanings of ADDI and ADD (41_arithmetic.md): the execute phase only (R65); `pc` and `cycle` are moved
by the step. -/

namespace Sys2Proof.Machine

/-- ADDI (R72): `x[rt] <- x[rs] +32 sext_32(imm)`; no overflow trap in any case. -/
def execAddi (rs rt : RegIndex) (imm : BitVec 16) (s : State) : Host.Outcome State Fault Refusal :=
  .next (s.writeGpr rt (add32 (s.readGpr rs) (sext32 imm)))

/-- ADD (R73): `x[rd] <- x[rs] +32 x[rt]`; no overflow trap in any case. -/
def execAdd (rs rt rd : RegIndex) (s : State) : Host.Outcome State Fault Refusal :=
  .next (s.writeGpr rd (add32 (s.readGpr rs) (s.readGpr rt)))

end Sys2Proof.Machine
end

