-- ==== Sys2Proof/Machine/Load.lean ====
section
/-! DEFINITION. The meaning of LW, the only instruction that makes a data access (42_load.md). -/

namespace Sys2Proof.Machine

/-- LW (R75): `x[rt] <- MemRead(x[rs] +32 sext_32(imm), 4)`. An out-of-range address loads 0; nothing is raised. -/
def execLw (rs rt : RegIndex) (imm : BitVec 16) (s : State) : Host.Outcome State Fault Refusal :=
  .next (s.writeGpr rt (s.memRead (s.effectiveAddress rs imm)))

end Sys2Proof.Machine
end

