-- ==== Sys2Proof/Machine/Undefined.lean ====
section
/-! DEFINITION. The meaning of UNDEF, every other instruction word (43_undefined_noop.md). -/

namespace Sys2Proof.Machine

/-- UNDEF (R77): nothing when `STRICT_MODE = false`; with `STRICT_MODE = true` the fault of R88 (R83). -/
def execUndef (word : Word) (s : State) : Host.Outcome State Fault Refusal :=
  if s.cfg.strictMode then raiseUnsupported s word else .next s

end Sys2Proof.Machine
end

