-- ==== Sys2Proof/Machine/Dispatch.lean ====
section
/-! DEFINITION. Phase 3 of a step (R65): one arm per constructor of `Instr`. -/

namespace Sys2Proof.Machine

-- Exactly one of four actions, according to the decode result (R65).
def exec (i : Instr) (s : State) : Host.Outcome State Fault Refusal :=
  match i with
  | .addi rs rt imm => Sys2Proof.Machine.execAddi rs rt imm s
  | .lw rs rt imm => Sys2Proof.Machine.execLw rs rt imm s
  | .add rs rt rd => Sys2Proof.Machine.execAdd rs rt rd s
  | .undef word => Sys2Proof.Machine.execUndef word s

end Sys2Proof.Machine
end

