-- ==== Sys2Proof/Machine/Step.lean ====
section
/-! DEFINITION. One step: fetch, decode, execute, PC advance, cycle increment (R62); and the placing of a word where the
next step fetches. -/

namespace Sys2Proof.Machine

/-- `STEP` (R62): the five phases in order, as one operation. A fault in phase 3 ends the step before phases 4 and 5. -/
def step (s : State) : Host.Outcome State Fault Refusal :=
  match exec (decodeWord s.fetchWord) s with
  | .next t => .next t.advancePc.countCycle
  | .fault r => .fault r
  | .refused r => .refused r

/-- `s` with the low `nbits` bits of `w` stored, big-endian, where the next step fetches. When `pc` is outside RAM, as it
is right after reset, nothing can be stored there, and the program counter is first set to `ENTRY_PC`, as LOAD_IMAGE does
(R104; log entry 13). -/
def State.withFetchWord (s : State) (nbits w : Nat) : State :=
  if inRange s.cfg s.pc then s.memWrite s.pc (BitVec.ofNat 32 (w % 2 ^ nbits))
  else (s.setPc (entryPc s.cfg)).memWrite (entryPc s.cfg) (BitVec.ofNat 32 (w % 2 ^ nbits))

end Sys2Proof.Machine
end

