-- ==== Sys2Proof/Machine/Assembler.lean ====
section
/-! DEFINITION. The assembler forms of R60 and the pseudo-instructions of R61. Notation only: the source has none, the
spec takes the conventional MIPS forms (D17; PRESUMED, log entry 19), and no step reads anything of this file. -/

namespace Sys2Proof.Machine

/-- A line of assembly: the four rows of Table R60 and the three expansions of R61. -/
inductive AsmLine where
  | addi (rt rs : RegIndex) (imm : Int)
  | lw (rt : RegIndex) (offset : Int) (rs : RegIndex)
  | add (rd rs rt : RegIndex)
  | word (w : Word)
  | nop
  | li (rt : RegIndex) (imm : Int)
  | move (rd rs : RegIndex)
  deriving DecidableEq, Repr

/-- A signed number in `-32768 .. 32767` as its low 16 bits; any other has no encoding (Table R60). -/
def asmImm (n : Int) : Option (BitVec 16) :=
  if -32768 ≤ n ∧ n ≤ 32767 then some (BitVec.ofInt 16 n) else none

/-- The instruction a line stands for: `nop = .word 0x00000000`, `li rt, imm = addi rt, $0, imm`,
`move rd, rs = add rd, rs, $0` (R61). A `.word` line stands for whatever its word decodes to. -/
def AsmLine.instr : AsmLine → Option Instr
  | .addi rt rs imm => (asmImm imm).map (Instr.addi rs rt)
  | .lw rt offset rs => (asmImm offset).map (Instr.lw rs rt)
  | .add rd rs rt => some (.add rs rt rd)
  | .word w => some (decodeWord w)
  | .nop => some (.undef 0x00000000#32)
  | .li rt imm => (asmImm imm).map (Instr.addi 0 rt)
  | .move rd rs => some (.add rs 0 rd)

/-- The assembled word of a line (R60). A `.word` line is its word, bit for bit. -/
def AsmLine.assemble : AsmLine → Option Word
  | .word w => some w
  | line => line.instr.map encode

/-- `$0` to `$31` (R60). -/
def regName (r : RegIndex) : String := "$" ++ toString r.val

/-- The text of an instruction in the syntax of Table R60; the number after `.word` is written in decimal. -/
def showInstr : Instr → String
  | .addi rs rt imm => "addi " ++ regName rt ++ ", " ++ regName rs ++ ", " ++ toString imm.toInt
  | .lw rs rt imm => "lw " ++ regName rt ++ ", " ++ toString imm.toInt ++ "(" ++ regName rs ++ ")"
  | .add rs rt rd => "add " ++ regName rd ++ ", " ++ regName rs ++ ", " ++ regName rt
  | .undef w => ".word " ++ toString w.toNat

/-- The software aliases of registers 0 to 31, in order; they carry no hardware meaning (R13, R60). -/
def regAliases : List String :=
  ["$zero", "$at", "$v0", "$v1", "$a0", "$a1", "$a2", "$a3"] ++
  ["$t0", "$t1", "$t2", "$t3", "$t4", "$t5", "$t6", "$t7"] ++
  ["$s0", "$s1", "$s2", "$s3", "$s4", "$s5", "$s6", "$s7"] ++
  ["$t8", "$t9", "$k0", "$k1", "$gp", "$sp", "$fp", "$ra"]

end Sys2Proof.Machine
end

