-- ==== Sys2Proof/Machine/HostOps.lean ====
section
/-! DEFINITION. The host's operations (R7, 70_reset_and_hazards.md): creation, reset, image load, snapshot and restore,
inspection, the host-side memory write, and a history of atomic operations (R113). -/

namespace Sys2Proof.Machine

/-! ### Creation, image load and reset -/

/-- `POWER_ON` with parameters `c` (R101). Parameters outside the constraints of R5 are refused (D2). -/
def powerOn (c : Config) : Host.Outcome State Fault Refusal :=
  if c.wf then .next (State.fresh c) else .refused .parameterConstraint

/-- The boot transfer: the first `n = min(len(img), 4096, MEM_SIZE)` image bytes go to physical offset 0 and `pc` to the
entry address (R104, R106). It is a byte copy, not a sequence of port writes. -/
def State.bootTransfer (s : State) (img : List Byte) : State :=
  (s.setMem (writeBytes s.mem 0 (img.take (min bootXferLen s.cfg.memSize)))).setPc (entryPc s.cfg)

/-- `LOAD_IMAGE(img)` (R104): keeps the image and does the boot transfer; registers, `cycle` and the bytes of `MEM` past
the copied ones keep their values. -/
def State.loadImage (s : State) (img : List Byte) : State := (s.setImage (some img)).bootTransfer img

/-- `RESET` (R102): the state of a new instance with the same parameters and the same `IMAGE`, and then, if there is an
image, the boot transfer. -/
def State.resetOp (s : State) : State :=
  match s.image with
  | none => State.fresh s.cfg
  | some img => ((State.fresh s.cfg).setImage (some img)).bootTransfer img

/-! ### Snapshot and restore -/

/-- The hardware content of a snapshot (R108): the words `x[0]` to `x[31]` and then `pc`, the cycle counter, and the
whole of `MEM`. Its serialised layout is not specified (R110). A snapshot from elsewhere may have any shape. -/
structure Snapshot where
  words : List Word
  cycle : Nat
  bytes : List Byte
  deriving DecidableEq, Repr

/-- The 32 general registers, each as an instruction would read it (D24). -/
def State.gprWords (s : State) : List Word := List.ofFn fun i : RegIndex => s.readGpr i

/-- `SNAPSHOT` (R108): the whole machine state but `IMAGE` and the parameters (D14). -/
def State.snapshot (s : State) : Snapshot where
  words := s.gprWords ++ [s.pc]
  cycle := s.cycle
  bytes := readBytes s.mem 0 s.cfg.memSize

/-- The right shape for an instance with parameters `c`: 33 words and exactly `MEM_SIZE` memory bytes (R109). -/
def Snapshot.fits (p : Snapshot) (c : Config) : Bool :=
  decide (p.words.length = 33) && decide (p.bytes.length = c.memSize)

/-- The registers a snapshot restores; a hard-wired register 0 stays 0 whatever word 0 is (R109, D24). -/
def Snapshot.regs (p : Snapshot) (c : Config) : Vector Word 32 :=
  Vector.ofFn fun i : RegIndex => if isHardwired c i then 0#32 else p.words.getD i.val 0#32

/-- The replacement `RESTORE` makes when the shape is right (R109): registers, `pc`, `cycle` and `MEM`; `IMAGE` and the
parameters are unchanged. -/
def State.replaceBy (s : State) (p : Snapshot) : State :=
  (((s.setRegs (p.regs s.cfg)).setPc (p.words.getD 32 0#32)).setCycle p.cycle).setMem (writeBytes [] 0 p.bytes)

/-! ### Post-step mutators -/

/-- What one post-step mutator or other host overlay writes (R114): general registers and bytes of `MEM`, never `pc`. Its
content is unknown to the spec and is an argument here (D15, log entry 15). -/
structure Mutation where
  regWrites : List (RegIndex × Word)
  byteWrites : List (Nat × Byte)
  deriving DecidableEq, Repr

/-- Register writes in order, each as an instruction would write (R15). -/
def State.writeGprs (s : State) : List (RegIndex × Word) → State
  | [] => s
  | (i, v) :: rest => (s.writeGpr i v).writeGprs rest

/-- Byte writes in order; an offset outside `MEM` does not exist (R19) and is dropped. -/
def pokeBytes (size : Nat) : Memory → List (Nat × Byte) → Memory
  | m, [] => m
  | m, (a, b) :: rest => pokeBytes size (if a < size then writeByte m a b else m) rest

/-- Apply a mutation (R114): `pc`, `cycle`, `IMAGE` and the parameters are untouched. -/
def State.mutate (s : State) (d : Mutation) : State :=
  let t := s.writeGprs d.regWrites
  t.setMem (pokeBytes t.cfg.memSize t.mem d.byteWrites)

/-! ### The operations as one interface -/

/-- What the host can invoke on an instance (R7), and the overlay of R114. -/
inductive HostOp where
  | step
  | reset
  | loadImage (img : List Byte)
  | snapshot
  | restore (p : Snapshot)
  | readPc
  | readCycle
  | readGpr (i : RegIndex)
  | readMem32 (vaddr : Word)
  | writeMem32 (vaddr value : Word)
  | mutate (d : Mutation)
  deriving DecidableEq, Repr

/-- What an operation returns to the host. -/
inductive Reply where
  /-- Done, with nothing to return. -/
  | done
  /-- A 32-bit value read. -/
  | word (w : Word)
  /-- The cycle counter (R111). -/
  | count (n : Nat)
  /-- A captured state (R108). -/
  | snapshot (p : Snapshot)
  /-- `RESTORE` was given the wrong shape: the machine is unchanged (R100, R109). -/
  | snapshotMismatch
  /-- `STEP` ended with a fault: the machine is unchanged (R88). -/
  | stepFault (f : Fault)
  /-- `STEP` had no meaning for the instruction; no row of the table gives this. -/
  | stepRefused (r : Refusal)
  deriving DecidableEq, Repr

/-- One operation, atomic (R113): the state it leaves and its reply. A failed one leaves the prior state (R85). -/
def perform (op : HostOp) (s : State) : State × Reply :=
  match op with
  | .step =>
    match step s with
    | .next t => (t, .done)
    | .fault f => (s, .stepFault f)
    | .refused r => (s, .stepRefused r)
  | .reset => (s.resetOp, .done)
  | .loadImage img => (s.loadImage img, .done)
  | .snapshot => (s, .snapshot s.snapshot)
  | .restore p => if p.fits s.cfg then (s.replaceBy p, .done) else (s, .snapshotMismatch)
  | .readPc => (s, .word s.pc)
  | .readCycle => (s, .count s.cycle)
  | .readGpr i => (s, .word (s.readGpr i))
  | .readMem32 vaddr => (s, .word (s.memRead vaddr))
  | .writeMem32 vaddr value => (s.memWrite vaddr value, .done)
  | .mutate d => (s.mutate d, .done)

/-- A history: whole operations, each applied to the state the one before left (R113). -/
def performAll : List HostOp → State → State × List Reply
  | [], s => (s, [])
  | op :: rest, s =>
    let (t, r) := perform op s
    let (u, rs) := performAll rest t
    (u, r :: rs)

/-- `STEP` and then, in order, the mutators the session has enabled, each a function of the state and the cycle count
(R114). With none enabled, the machine the spec describes, this is `perform .step`. DESIGN CHOICE, unsafe (log entry 23):
R114 leaves open which state a second mutator of the same step reads, and what happens after a step that faults. Here each
reads the state its predecessor left, not the state right after the step, and after a fault none runs. -/
def performStepWith (mutators : List (State → Nat → Mutation)) (s : State) : State × Reply :=
  match perform .step s with
  | (t, .done) => (mutators.foldl (fun u f => u.mutate (f u u.cycle)) t, .done)
  | (t, r) => (t, r)

end Sys2Proof.Machine
end

