-- ==== Sys2Proof/Safety.lean ====
section
/-! DEFINITION. The terms the claims use: the invariant of an instance's state, a run of steps, what two states
have in common, and the numbers and conditions of the memory rules written out without the model's own port operations. -/

namespace Sys2Proof.Machine

/-- The invariant of every instance that POWER_ON creates: its parameters meet the constraints of R5, `MEM` is in
canonical form and lies within `MEM_SIZE` bytes (R19), and a hard-wired register 0 stores 0 (R15, D24). -/
abbrev State.Inv (s : State) : Prop :=
  s.cfg.wf = true ∧ Memory.wf s.mem = true ∧ Memory.within s.cfg.memSize s.mem = true ∧
    (s.cfg.zeroRegHardwired = true → s.regs[(0 : RegIndex)] = 0#32)

/-- `n` steps with no host operation in between, stopping at the first fault or refusal (R70, R71). -/
def runSteps : Nat → State → Host.Outcome State Fault Refusal
  | 0, s => .next s
  | n + 1, s =>
    match step s with
    | .next t => runSteps n t
    | .fault r => .fault r
    | .refused r => .refused r

/-- Everything but the general registers is the same in `t` as in `s`, memory byte by byte included. -/
abbrev sameButRegs (s t : State) : Prop :=
  t.cfg = s.cfg ∧ t.pc = s.pc ∧ t.cycle = s.cycle ∧ t.mem = s.mem ∧ t.image = s.image ∧
    ∀ a, readByte t.mem a = readByte s.mem a

/-- Register `i` reads `v` in `t` and every other register reads in `t` as in `s`; where `i` is a hard-wired register 0,
every register reads as in `s` (R15). -/
abbrev onlyRegWritten (s t : State) (i : RegIndex) (v : Word) : Prop :=
  ∀ j, t.readGpr j = if j = i ∧ ¬(s.cfg.zeroRegHardwired = true ∧ i = 0) then v else s.readGpr j

/-- The four bytes from physical offset `a` on as one number, the byte at the lowest offset counting most (R31, R34). -/
def bigEndianAt (m : Memory) (a : Nat) : Nat :=
  (readByte m a).toNat * 2 ^ 24 + (readByte m (a + 1)).toNat * 2 ^ 16 + (readByte m (a + 2)).toNat * 2 ^ 8 +
    (readByte m (a + 3)).toNat

/-- R30 in natural numbers: `KSEG_BASE <= vaddr` and `vaddr + 4 <= KSEG_BASE + MEM_SIZE`. -/
abbrev backed (c : Config) (vaddr : Nat) : Prop :=
  c.ksegBase.toNat ≤ vaddr ∧ vaddr + 4 ≤ c.ksegBase.toNat + c.memSize

/-- The same outcome with `f` applied to the next state, if there is one. -/
def mapNext (f : State → State) : Host.Outcome State Fault Refusal → Host.Outcome State Fault Refusal
  | .next t => .next (f t)
  | .fault r => .fault r
  | .refused r => .refused r

/-- The same machine with `STRICT_MODE` set to `b`: another instance, for comparing the two settings (R83). -/
def State.withStrict (s : State) (b : Bool) : State := { s with cfg := { s.cfg with strictMode := b } }

end Sys2Proof.Machine
end

