-- ==== Sys2Proof/Certificates/Slice0/Obligations.lean ====
section
/-! DEFINITION. The statements about the model, each with the rule of spec/ it formalises. -/

open Sys2Proof Sys2Proof.Machine

/-! ### The step -/

/-- R62: the step fetches at `pc`, decodes, executes, and then sets `pc` to the old `pc` plus 4 and adds 1 to `cycle`; if
phase 3 raises the fault, as it does for an UNDEF word in strict mode, phases 4 and 5 are not performed. Phase 3 ends in
one of these two ways, never in a refusal. -/
def Obligations.StepRunsDecodedInstruction : Prop :=
  ∀ (s : State) (i : Instr), decodeWord (s.memRead s.pc) = i →
    (∀ t, exec i s = .next t → step s = .next { t with pc := s.pc + 4#32, cycle := s.cycle + 1 }) ∧
    (∀ f, exec i s = .fault f → step s = .fault f) ∧
    (∀ r, exec i s ≠ .refused r) ∧
    (s.cfg.strictMode = true → ∀ w, i = .undef w → ∃ f, step s = .fault f)

/-- R63: the fetched word is the big-endian word at `pc`, aligned or not; an out-of-range `pc` yields the word 0 and no
error; the fetch changes nothing, so the step runs `exec` of the decoded word at the same state. -/
def Obligations.FetchIsBigEndianWordAtPc : Prop :=
  ∀ s : State,
    (backed s.cfg s.pc.toNat → s.fetchWord.toNat = bigEndianAt s.mem (s.pc.toNat - s.cfg.ksegBase.toNat)) ∧
    (¬ backed s.cfg s.pc.toNat → s.fetchWord = 0x00000000#32 ∧
      (s.cfg.strictMode = false → step s = .next { s with pc := s.pc + 4#32, cycle := s.cycle + 1 })) ∧
    step s = mapNext (fun t => { t with pc := s.pc + 4#32, cycle := s.cycle + 1 }) (exec (decodeWord s.fetchWord) s)

/-- R66 and R67: every completed step advances `pc` by 4 modulo 2^32 and `cycle` by exactly 1, whatever the instruction
was; a step completes unless the word is unsupported and the machine is in strict mode. -/
def Obligations.CompletedStepAdvancesPcAndCycle : Prop :=
  ∀ s : State,
    (∀ t, step s = .next t → t.pc.toNat = (s.pc.toNat + 4) % 2 ^ 32 ∧ t.cycle = s.cycle + 1) ∧
    (s.cfg.strictMode = false ∨ matchesUndef s.fetchWord = false → ∃ t, step s = .next t)

/-- R65: an execute action writes at most one general register and neither memory nor `pc` nor `cycle`, and no action but
LW reads memory. -/
def Obligations.ExecuteWritesAtMostOneRegister : Prop :=
  (∀ (i : Instr) (s t : State), exec i s = .next t →
    sameButRegs s t ∧ ∃ r, ∀ j, j ≠ r → t.readGpr j = s.readGpr j) ∧
  (∀ (i : Instr) (s : State) (m : Memory), (∀ rs rt imm, i ≠ .lw rs rt imm) →
    exec i (s.setMem m) = mapNext (fun t => t.setMem m) (exec i s))

/-- R69: a permissive step has a next state; a strict step has a next state or a fault that leaves the state unchanged;
and the step is a function of `(x, pc, cycle, MEM)` and the parameters, so `IMAGE` has no part in it. -/
def Obligations.StepIsTotalAndIgnoresImage : Prop :=
  ∀ s : State,
    (s.cfg.strictMode = false → ∃ t, step s = .next t) ∧
    (s.cfg.strictMode = true → (∃ t, step s = .next t) ∨ ∃ f, step s = .fault f ∧ (perform .step s).1 = s) ∧
    ∀ im, step (s.setImage im) = mapNext (fun t => t.setImage im) (step s)

/-- The laws that 40_step_pipeline.md lists as consequences, marked there as derived: after `n` permissive steps with no
host operation between, `pc` and `cycle` have advanced `n` times, `MEM` and `IMAGE` are unchanged, and the next word
fetched is the one at `pc0 + 4n` of the unchanging memory. -/
def Obligations.RunOfStepsIsStraightLine : Prop :=
  ∀ (n : Nat) (s : State), s.cfg.strictMode = false →
    ∃ t, runSteps n s = .next t ∧ t.pc.toNat = (s.pc.toNat + 4 * n) % 2 ^ 32 ∧ t.cycle = s.cycle + n ∧
      t.mem = s.mem ∧ t.image = s.image ∧ t.cfg = s.cfg ∧
      t.fetchWord = s.memRead (BitVec.ofNat 32 (s.pc.toNat + 4 * n))

/-- The residue of `pc` modulo 4 never changes within a run of steps, in either mode (derived in 10_state.md section 2). -/
def Obligations.PcKeepsResidueModFour : Prop :=
  ∀ (n : Nat) (s t : State), runSteps n s = .next t → t.pc.toNat % 4 = s.pc.toNat % 4

/-- R119: LW writes its register within its own step and the next step reads the new value, whichever instruction that
reads a register it runs and whichever operand names it: an ADD, an ADDI, or an LW with it as its base. There is no load
delay. A hard-wired register 0 reads 0 as a destination of either step. -/
def Obligations.LoadedValueIsReadByNextInstruction : Prop :=
  ∀ (s : State) (rs rt : RegIndex) (imm : BitVec 16), decodeWord s.fetchWord = .lw rs rt imm →
    let kept (r : RegIndex) (v : Word) : Word := if s.cfg.zeroRegHardwired = true ∧ r = 0 then 0#32 else v
    ∃ t, step s = .next t ∧
      t.readGpr rt = kept rt (s.memRead (BitVec.ofInt 32 ((s.readGpr rs).toNat + imm.toInt))) ∧
      (∀ ra rb rd, decodeWord t.fetchWord = .add ra rb rd → ∃ u, step t = .next u ∧
        u.readGpr rd = kept rd (BitVec.ofNat 32 ((t.readGpr ra).toNat + (t.readGpr rb).toNat))) ∧
      (∀ ra rd k, decodeWord t.fetchWord = .addi ra rd k → ∃ u, step t = .next u ∧
        u.readGpr rd = kept rd (BitVec.ofInt 32 ((t.readGpr ra).toNat + k.toInt))) ∧
      (∀ ra rd k, decodeWord t.fetchWord = .lw ra rd k → ∃ u, step t = .next u ∧
        u.readGpr rd = kept rd (t.memRead (BitVec.ofInt 32 ((t.readGpr ra).toNat + k.toInt))))

/-! ### The instructions -/

/-- R72: ADDI completes in every state with every operand; the destination reads `(x[rs] + signed(imm)) mod 2^32`, unless
it is a hard-wired register 0, and everything else is unchanged. Every word with mask 0xFC000000, match 0x20000000 is an
ADDI. -/
def Obligations.AddiAddsSignExtendedImmediate : Prop :=
  ∀ (s : State) (rs rt : RegIndex) (imm : BitVec 16),
    (∃ t, exec (.addi rs rt imm) s = .next t ∧ sameButRegs s t ∧
      onlyRegWritten s t rt (BitVec.ofInt 32 ((s.readGpr rs).toNat + imm.toInt))) ∧
    ∀ w : Word, w &&& 0xFC000000#32 = 0x20000000#32 → ∃ ra rb k, decodeWord w = .addi ra rb k

/-- R73: ADD completes in every state with every operand; the destination reads `(x[rs] + x[rt]) mod 2^32`, unless it is
a hard-wired register 0, and everything else is unchanged. Every word with mask 0xFC00003F, match 0x00000020 is an ADD,
whatever its other bits, `shamt` among them. -/
def Obligations.AddSumsTwoRegisters : Prop :=
  ∀ (s : State) (rs rt rd : RegIndex),
    (∃ t, exec (.add rs rt rd) s = .next t ∧ sameButRegs s t ∧
      onlyRegWritten s t rd (BitVec.ofNat 32 ((s.readGpr rs).toNat + (s.readGpr rt).toNat))) ∧
    ∀ w : Word, w &&& 0xFC00003F#32 = 0x00000020#32 → ∃ ra rb rc, decodeWord w = .add ra rb rc

/-- R75: LW completes in every state with every operand; the destination reads the big-endian word at
`(x[rs] + signed(imm)) mod 2^32`, aligned or not, or 0 when that address is out of range; everything else is unchanged,
memory included. Every word with mask 0xFC000000, match 0x8C000000 is an LW. -/
def Obligations.LwLoadsBigEndianWordOrZero : Prop :=
  ∀ (s : State) (rs rt : RegIndex) (imm : BitVec 16),
    (∃ t v, exec (.lw rs rt imm) s = .next t ∧ sameButRegs s t ∧ onlyRegWritten s t rt v ∧
      let addr := ((((s.readGpr rs).toNat : Int) + imm.toInt) % 2 ^ 32).toNat
      v.toNat = if backed s.cfg addr then bigEndianAt s.mem (addr - s.cfg.ksegBase.toNat) else 0) ∧
    ∀ w : Word, w &&& 0xFC000000#32 = 0x8C000000#32 → ∃ ra rb k, decodeWord w = .lw ra rb k

/-- R58: with `STRICT_MODE = false` no word traps, and every word outside the three patterns leaves registers and memory
unchanged, `pc` advanced by 4 and `cycle` incremented; with `STRICT_MODE = true` exactly the same set of words raises
`UnsupportedInstruction`. -/
def Obligations.UnsupportedWordsDoNothingOrFault : Prop :=
  ∀ s : State,
    (s.cfg.strictMode = false →
      (∃ t, step s = .next t) ∧
      (∀ w, exec (.undef w) s = .next s) ∧
      (matchesUndef s.fetchWord = true → step s = .next { s with pc := s.pc + 4#32, cycle := s.cycle + 1 })) ∧
    (s.cfg.strictMode = true →
      ((∃ p w, step s = .fault (.unsupportedInstruction p w)) ↔ matchesUndef s.fetchWord = true))

/-- R78 and R79: the words that transfer control or store on a MIPS processor (`op` 0x01 to 0x07 and 0x14 to 0x17, `op` 0
with `funct` 0x08 or 0x09; the store encodings `op` 0x28 to 0x2E and 0x38 to 0x3F) only advance `pc` by 4 and `cycle` by
1: no target, no link register, no memory write, no success flag. -/
def Obligations.ControlTransferAndStoreWordsOnlyAdvance : Prop :=
  ∀ s : State, s.cfg.strictMode = false →
    (s.fetchWord.toNat / 2 ^ 26 ∈
        [0x01, 0x02, 0x03, 0x04, 0x05, 0x06, 0x07, 0x14, 0x15, 0x16, 0x17, 0x28, 0x29, 0x2A, 0x2B, 0x2C, 0x2D, 0x2E,
          0x38, 0x39, 0x3A, 0x3B, 0x3C, 0x3D, 0x3E, 0x3F] ∨
      s.fetchWord.toNat / 2 ^ 26 = 0 ∧ s.fetchWord.toNat % 2 ^ 6 ∈ [0x08, 0x09]) →
    step s = .next { s with pc := s.pc + 4#32, cycle := s.cycle + 1 }

/-- R80: the words that are system, coprocessor, cache or trap instructions on a MIPS processor (`op` 0 with `funct` 0x0C,
0x0D, 0x0F, 0x30 to 0x36; `op` 0x10 to 0x13, 0x2F, 0x31, 0x32, 0x35, 0x36, 0x39, 0x3A, 0x3D, 0x3E) only advance `pc` by 4
and `cycle` by 1: none traps, changes a mode or writes a register. -/
def Obligations.SystemWordsOnlyAdvance : Prop :=
  ∀ s : State, s.cfg.strictMode = false →
    (s.fetchWord.toNat / 2 ^ 26 ∈
        [0x10, 0x11, 0x12, 0x13, 0x2F, 0x31, 0x32, 0x35, 0x36, 0x39, 0x3A, 0x3D, 0x3E] ∨
      s.fetchWord.toNat / 2 ^ 26 = 0 ∧
        s.fetchWord.toNat % 2 ^ 6 ∈ [0x0C, 0x0D, 0x0F, 0x30, 0x31, 0x32, 0x33, 0x34, 0x35, 0x36]) →
    step s = .next { s with pc := s.pc + 4#32, cycle := s.cycle + 1 }

/-! ### Faults -/

/-- R84: with `STRICT_MODE = false` no instruction and no run of steps, however long, ends in a fault. -/
def Obligations.PermissiveNeverFaults : Prop :=
  ∀ s : State, s.cfg.strictMode = false →
    (∀ i, ∃ t, exec i s = .next t) ∧ (∀ n, ∃ t, runSteps n s = .next t) ∧ (perform .step s).2 = .done

/-- The strict-mode fault as 60_exceptions.md section 1 decides it (D7, the spec's own choice, log entry 7): it carries
the `pc` of the word and the word, the state does not change, and steps repeated with no host action between fault again
identically. -/
def Obligations.StrictFaultLeavesStateAndRepeats : Prop :=
  ∀ s : State, s.cfg.strictMode = true → matchesUndef s.fetchWord = true →
    step s = .fault (.unsupportedInstruction s.pc s.fetchWord) ∧
    ∀ n, performAll (List.replicate n .step) s =
      (s, List.replicate n (.stepFault (.unsupportedInstruction s.pc s.fetchWord)))

/-- ADDI, LW and ADD behave identically in both modes (43_undefined_noop.md, decision D7, log entry 7): whatever value
`STRICT_MODE` has, their meanings and their steps differ in nothing but the parameter itself. -/
def Obligations.StrictModeKeepsDefinedInstructions : Prop :=
  ∀ (s : State) (b : Bool),
    (∀ i : Instr, (∀ w, i ≠ .undef w) → exec i (s.withStrict b) = mapNext (fun t => t.withStrict b) (exec i s)) ∧
    (matchesUndef s.fetchWord = false → step (s.withStrict b) = mapNext (fun t => t.withStrict b) (step s))

/-! ### Memory -/

/-- R31: `MemRead` returns the four bytes at `phys` as a big-endian word when `0 <= phys <= MEM_SIZE - 4`, and 0
otherwise. -/
def Obligations.MemReadIsBigEndianWordOrZero : Prop :=
  ∀ (s : State) (v : Word),
    let p : Int := (v.toNat : Int) - s.cfg.ksegBase.toNat
    (0 ≤ p ∧ p ≤ (s.cfg.memSize : Int) - 4 → (s.memRead v).toNat = bigEndianAt s.mem p.toNat) ∧
    (¬(0 ≤ p ∧ p ≤ (s.cfg.memSize : Int) - 4) → s.memRead v = 0x00000000#32)

/-- R32: an in-range `MemWrite` sets `MEM[phys]` to `MEM[phys+3]` to the bytes of the value, most significant first, and
changes nothing else; an out-of-range one is dropped. -/
def Obligations.MemWriteStoresFourBytesOrNothing : Prop :=
  ∀ (s : State) (v w : Word), Memory.wf s.mem = true →
    let p : Int := (v.toNat : Int) - s.cfg.ksegBase.toNat
    let t := s.memWrite v w
    (0 ≤ p ∧ p ≤ (s.cfg.memSize : Int) - 4 →
      (readByte t.mem p.toNat).toNat = w.toNat / 2 ^ 24 ∧
      (readByte t.mem (p.toNat + 1)).toNat = w.toNat / 2 ^ 16 % 256 ∧
      (readByte t.mem (p.toNat + 2)).toNat = w.toNat / 2 ^ 8 % 256 ∧
      (readByte t.mem (p.toNat + 3)).toNat = w.toNat % 256 ∧
      (∀ a, a < p.toNat ∨ p.toNat + 3 < a → readByte t.mem a = readByte s.mem a) ∧
      t.cfg = s.cfg ∧ t.regs = s.regs ∧ t.pc = s.pc ∧ t.cycle = s.cycle ∧ t.image = s.image) ∧
    (¬(0 ≤ p ∧ p ≤ (s.cfg.memSize : Int) - 4) → t = s)

/-- R38: a read right after an in-range write at the same address returns the value written. -/
def Obligations.ReadAfterWriteReturnsValue : Prop :=
  ∀ (s : State) (v w : Word), Memory.wf s.mem = true → backed s.cfg v.toNat → (s.memWrite v w).memRead v = w

/-- The out-of-range law of 20_memory.md section 5 with the spec's own addition (derived there): outside RAM, and at the
last three addresses inside it, a read returns 0 and a write changes nothing, as a whole. -/
def Obligations.OutOfRangeReadsZeroAndDropsWrites : Prop :=
  ∀ (s : State) (v w : Word),
    v.toNat < s.cfg.ksegBase.toNat ∨ s.cfg.ksegBase.toNat + s.cfg.memSize - 3 ≤ v.toNat →
    s.memRead v = 0x00000000#32 ∧ s.memWrite v w = s

/-- The mapping is injective, stays inside `MEM`, and agrees with a subtraction modulo 2^32 under the constraints of the
parameters (20_memory.md sections 2 and 6; the integer reading is decision D20, log entry 11). -/
def Obligations.TranslationIsInjectiveAndMayWrap : Prop :=
  ∀ (c : Config) (v : Word),
    (inRange c v = true → physIndex c v + 3 < c.memSize ∧ (v - c.ksegBase).toNat = physIndex c v ∧
      ∀ v', inRange c v' = true → physIndex c v = physIndex c v' → v = v') ∧
    (c.wf = true → (inRange c v = true ↔ (v - c.ksegBase).toNat + 4 ≤ c.memSize))

/-- A host write is seen by the very next fetch (20_memory.md section 7, derived there): after `WRITE_MEM32` at an
in-range `pc` the fetched word is the value written, and the step runs it. -/
def Obligations.WriteIsSeenByNextFetch : Prop :=
  ∀ (s : State) (w : Word), Memory.wf s.mem = true → backed s.cfg s.pc.toNat →
    let t := (perform (.writeMem32 s.pc w) s).1
    t.fetchWord = w ∧
    step t = mapNext (fun u => { u with pc := s.pc + 4#32, cycle := s.cycle + 1 }) (exec (decodeWord w) t)

/-! ### Registers -/

/-- Register 0 under its parameter (10_state.md section 1; decisions D6 and D24, log entry 8): hard-wired, it reads 0 at
all times, in a snapshot too, and a write has no effect; otherwise it is an ordinary register. Every other register reads
the value last written, and a write touches no other register. -/
def Obligations.RegisterZeroFollowsItsParameter : Prop :=
  ∀ (s : State) (v : Word),
    (s.cfg.zeroRegHardwired = true →
      s.readGpr 0 = 0#32 ∧ s.snapshot.words.getD 0 1#32 = 0#32 ∧ ∀ j, (s.writeGpr 0 v).readGpr j = s.readGpr j) ∧
    (s.cfg.zeroRegHardwired = false → (s.writeGpr 0 v).readGpr 0 = v) ∧
    (∀ i, i ≠ 0 → (s.writeGpr i v).readGpr i = v) ∧
    (∀ i j, j ≠ i → (s.writeGpr i v).readGpr j = s.readGpr j)

/-! ### Decoding -/

/-- R55 and R56: the primary opcode map for all 64 values of `op` and the function map for all 64 values of `funct`. -/
def Obligations.DecoderFollowsOpcodeMaps : Prop :=
  ∀ w : Word,
    let op := w.toNat / 2 ^ 26
    let funct := w.toNat % 2 ^ 6
    (op = 0x08 → ∃ rs rt imm, decodeWord w = .addi rs rt imm) ∧
    (op = 0x23 → ∃ rs rt imm, decodeWord w = .lw rs rt imm) ∧
    (op = 0x00 → funct = 0x20 → ∃ rs rt rd, decodeWord w = .add rs rt rd) ∧
    (op = 0x00 → funct ≠ 0x20 → decodeWord w = .undef w) ∧
    (op ≠ 0x00 → op ≠ 0x08 → op ≠ 0x23 → decodeWord w = .undef w)

/-- The decode function of 30_encoding.md section 3 by its mask and match pairs, with every operand's bits. The positions
of the register fields and of the immediate are the spec's choice D5 (log entry 4, PRESUMED). -/
def Obligations.DecoderReadsFieldsOfTheLayout : Prop :=
  ∀ w : Word,
    (w &&& 0xFC000000#32 = 0x20000000#32 → ∃ rs rt imm, decodeWord w = .addi rs rt imm ∧
      rs.val = w.toNat / 2 ^ 21 % 32 ∧ rt.val = w.toNat / 2 ^ 16 % 32 ∧ imm.toNat = w.toNat % 2 ^ 16) ∧
    (w &&& 0xFC000000#32 = 0x8C000000#32 → ∃ rs rt imm, decodeWord w = .lw rs rt imm ∧
      rs.val = w.toNat / 2 ^ 21 % 32 ∧ rt.val = w.toNat / 2 ^ 16 % 32 ∧ imm.toNat = w.toNat % 2 ^ 16) ∧
    (w &&& 0xFC00003F#32 = 0x00000020#32 → ∃ rs rt rd, decodeWord w = .add rs rt rd ∧
      rs.val = w.toNat / 2 ^ 21 % 32 ∧ rt.val = w.toNat / 2 ^ 16 % 32 ∧ rd.val = w.toNat / 2 ^ 11 % 32) ∧
    (w &&& 0xFC000000#32 ≠ 0x20000000#32 → w &&& 0xFC000000#32 ≠ 0x8C000000#32 →
      w &&& 0xFC00003F#32 ≠ 0x00000020#32 → decodeWord w = .undef w)

/-- Decoding the encoded word of a well-formed instruction, or its four bytes followed by anything, gives it back, for
every operand value (30_encoding.md; field positions D5, log entry 4). -/
def Obligations.DecodeOfEncodeIsIdentity : Prop :=
  ∀ i : Instr, i.wf = true →
    decodeWord (encode i) = i ∧ ∀ rest, decode (wordBytes (encode i) ++ rest) = .ok (i, rest)

/-- The other direction (30_encoding.md section 3, derived there): encoding what a word decodes to gives the word back,
but for `shamt` of an ADD word, which is cleared; so every bit of an ADDI or LW word takes part, `shamt` of an ADD word
does not, and what any word decodes to is well formed. -/
def Obligations.EncodeOfDecodeClearsOnlyShamt : Prop :=
  ∀ w : Word,
    (decodeWord w).wf = true ∧
    (matchesAdd w = false → encode (decodeWord w) = w) ∧
    (matchesAdd w = true → encode (decodeWord w) = w &&& 0xFFFFF83F#32 ∧
      ∀ w', w' &&& 0xFFFFF83F#32 = w &&& 0xFFFFF83F#32 → decodeWord w' = decodeWord w)

/-- A word of each row, written out from its encoding, decodes to the instruction it stands for (95_test_vectors.md). The
positions of the register fields and of the immediate in these words are the spec's choice D5 (log entry 4, PRESUMED). -/
def Obligations.SampleWordsDecode : Prop :=
  decodeWord 0b00100000001000101111111111111101#32 = .addi 1 2 0xFFFD#16 ∧
  decodeWord 0b10001100001000100000000001010000#32 = .lw 1 2 0x0050#16 ∧
  decodeWord 0b00000000001000100001100000100000#32 = .add 1 2 3 ∧
  decodeWord 0b00000000001000100001100011100000#32 = .add 1 2 3 ∧
  decodeWord 0b00000000001000100000100000100001#32 = .undef 0x00220821#32 ∧
  decodeWord 0b00100100000000010000000000000101#32 = .undef 0x24010005#32

/-! ### The host's operations -/

/-- The state of a new instance (70_reset_and_hazards.md section 1; that the registers are 0 is decision D8 and that
creation equals a reset with no image D23, log entries 5 and 17; that `cycle` is a natural number D9, log entry 6):
registers 0, `pc` at the reset vector, `cycle` 0, memory zero, no image. Parameters outside Table R5's constraints are
refused (D2, log entry 14). `State.reset` is the fresh state of the model's reference parameters (log entry 2). -/
def Obligations.PowerOnGivesFreshState : Prop :=
  (∀ c : Config, c.wf = true ↔
    4096 ≤ c.memSize ∧ c.ksegBase.toNat + c.memSize ≤ 2 ^ 32 ∧ c.resetVector ≠ c.ksegBase) ∧
  (∀ c : Config, c.wf = true → ∃ s, powerOn c = .next s ∧ s.cfg = c ∧ (∀ i, s.readGpr i = 0#32) ∧
    s.pc = c.resetVector ∧ s.cycle = 0 ∧ (∀ a, readByte s.mem a = 0x00#8) ∧ s.image = none) ∧
  (∀ c : Config, c.wf = false → powerOn c = .refused .parameterConstraint) ∧
  powerOn Config.reference = .next State.reset

/-- `RESET` (70_reset_and_hazards.md section 1; that the registers become 0 is decision D8, that `cycle` becomes 0 D12, and
the copied length D11, log entries 5, 6 and 10): registers and `cycle` 0, parameters and `IMAGE` kept; without an image
`pc` at the reset vector and memory zero; with one, `pc` at the entry address and memory the first
`min(len, 4096, MEM_SIZE)` image bytes, then zero. -/
def Obligations.ResetReplaysBootTransfer : Prop :=
  ∀ s : State,
    let t := (perform .reset s).1
    t.cfg = s.cfg ∧ t.image = s.image ∧ (∀ i, t.readGpr i = 0#32) ∧ t.cycle = 0 ∧
    (s.image = none → t.pc = s.cfg.resetVector ∧ ∀ a, readByte t.mem a = 0x00#8) ∧
    (∀ img, s.image = some img → t.pc = entryPc s.cfg ∧
      ∀ a, readByte t.mem a = if a < min img.length (min 4096 s.cfg.memSize) then img.getD a 0x00#8 else 0x00#8)

/-- `LOAD_IMAGE` (70_reset_and_hazards.md section 2; decisions D11 and D13, log entry 10): keeps the image, copies its
first `min(len, 4096, MEM_SIZE)` bytes to physical offset 0, sets `pc` to the entry address, and leaves registers,
`cycle`, the parameters and the rest of memory alone. -/
def Obligations.LoadImageCopiesPrefixAndKeepsRest : Prop :=
  ∀ (s : State) (img : List Byte), Memory.wf s.mem = true →
    let t := (perform (.loadImage img) s).1
    t.image = some img ∧ t.pc = entryPc s.cfg ∧ t.regs = s.regs ∧ t.cycle = s.cycle ∧ t.cfg = s.cfg ∧
    ∀ a, readByte t.mem a =
      if a < min img.length (min 4096 s.cfg.memSize) then img.getD a 0x00#8 else readByte s.mem a

/-- After `LOAD_IMAGE` on any instance that meets the invariant, the first word fetched is made of the first four image
bytes, most significant first, because the entry address is `KSEG_BASE` (70_reset_and_hazards.md sections 2 and 5, derived
there; D4, log entry 3). -/
def Obligations.BootRunsFirstImageWord : Prop :=
  ∀ (s : State) (b0 b1 b2 b3 : Byte) (rest : List Byte), s.Inv →
    let t := (perform (.loadImage (b0 :: b1 :: b2 :: b3 :: rest)) s).1
    t.pc = s.cfg.ksegBase ∧
    t.fetchWord.toNat = b0.toNat * 2 ^ 24 + b1.toNat * 2 ^ 16 + b2.toNat * 2 ^ 8 + b3.toNat

/-- `SNAPSHOT` changes nothing and returns the 33 words `x[0]` to `x[31]` and `pc`, `cycle`, and every byte of `MEM`, on
any instance. That snapshot restored gives back exactly the captured state, cycle counter included, whatever happened on
the instance in between; `IMAGE` is not in the snapshot and stays (70_reset_and_hazards.md section 3; D14 and D24, log
entries 8 and 9). -/
def Obligations.RestoreOfSnapshotIsExact : Prop :=
  ∀ s : State,
    let p := s.snapshot
    perform .snapshot s = (s, .snapshot p) ∧
    p.words.length = 33 ∧ (∀ i : RegIndex, p.words.getD i.val 0#32 = s.readGpr i) ∧ p.words.getD 32 0#32 = s.pc ∧
    p.cycle = s.cycle ∧
    p.bytes.length = s.cfg.memSize ∧ (∀ a, a < s.cfg.memSize → p.bytes.getD a 0x00#8 = readByte s.mem a) ∧
    (s.Inv →
      perform (.restore p) s = (s, .done) ∧
      ∀ t : State, t.cfg = s.cfg → perform (.restore p) t = ({ s with image := t.image }, .done))

/-- What `RESTORE` of any snapshot of the right shape leaves (70_reset_and_hazards.md section 3; D14 and D24, log entries
8 and 9): every register, `pc`, `cycle` and every byte of memory from the snapshot, a hard-wired register 0 still 0, and
`IMAGE` and the parameters unchanged. -/
def Obligations.RestoreReplacesCapturedState : Prop :=
  ∀ (s : State) (p : Snapshot), p.words.length = 33 → p.bytes.length = s.cfg.memSize →
    let t := (perform (.restore p) s).1
    (perform (.restore p) s).2 = .done ∧
    (∀ i : RegIndex, t.readGpr i =
      if s.cfg.zeroRegHardwired = true ∧ i = 0 then 0#32 else p.words.getD i.val 0#32) ∧
    t.pc = p.words.getD 32 0#32 ∧ t.cycle = p.cycle ∧ (∀ a, readByte t.mem a = p.bytes.getD a 0x00#8) ∧
    t.image = s.image ∧ t.cfg = s.cfg

/-- R100: `RESTORE` of the wrong shape fails with `SnapshotMismatch` and changes nothing, and no other host operation
fails: `SnapshotMismatch` comes from nothing else, no operation ends in a refusal, `RESET`, `LOAD_IMAGE`, `WRITE_MEM32`
and a `RESTORE` of the right shape reply that they are done, and `POWER_ON` creates an instance for all parameters R5
allows. The fault of a strict step is the outcome of `STEP` alone. -/
def Obligations.SnapshotMismatchChangesNothing : Prop :=
  (∀ (s : State) (p : Snapshot),
    (p.words.length ≠ 33 ∨ p.bytes.length ≠ s.cfg.memSize → perform (.restore p) s = (s, .snapshotMismatch)) ∧
    (p.words.length = 33 → p.bytes.length = s.cfg.memSize → (perform (.restore p) s).2 = .done)) ∧
  (∀ (op : HostOp) (s : State), (perform op s).2 = .snapshotMismatch →
    ∃ p, op = .restore p ∧ (p.words.length ≠ 33 ∨ p.bytes.length ≠ s.cfg.memSize)) ∧
  (∀ (op : HostOp) (s : State) (r : Refusal), (perform op s).2 ≠ .stepRefused r) ∧
  (∀ (op : HostOp) (s : State) (f : Fault), (perform op s).2 = .stepFault f → op = .step) ∧
  (∀ (s : State) (img : List Byte) (v w : Word),
    (perform .reset s).2 = .done ∧ (perform (.loadImage img) s).2 = .done ∧
    (perform (.writeMem32 v w) s).2 = .done) ∧
  (∀ c : Config, c.wf = true → ∃ s, powerOn c = .next s)

/-- R111: the inspection reads return `pc`, `cycle`, the register as an instruction would read it, and the word of
`MemRead`; none changes any state. -/
def Obligations.InspectionReadsChangeNothing : Prop :=
  ∀ (s : State) (i : RegIndex) (v : Word),
    perform .readPc s = (s, .word s.pc) ∧ perform .readCycle s = (s, .count s.cycle) ∧
    perform (.readGpr i) s = (s, .word (s.readGpr i)) ∧ perform (.readMem32 v) s = (s, .word (s.memRead v))

/-- R112: `WRITE_MEM32` is `MemWrite` by the host, dropped out of range; and it is the only operation of R7, other than
`LOAD_IMAGE`, `RESET` and `RESTORE`, by which `MEM` changes (`mutate` is the overlay of R114, not an operation of R7). -/
def Obligations.OnlyHostWritesChangeMemory : Prop :=
  (∀ (s : State) (v w : Word), perform (.writeMem32 v w) s = (s.memWrite v w, .done)) ∧
  (∀ (s : State) (v w : Word), ¬ backed s.cfg v.toNat → (perform (.writeMem32 v w) s).1 = s) ∧
  (∀ (op : HostOp) (s : State), (perform op s).1.mem ≠ s.mem →
    (∃ v w, op = .writeMem32 v w) ∨ (∃ img, op = .loadImage img) ∨ op = .reset ∨ (∃ p, op = .restore p) ∨
      ∃ d, op = .mutate d)

/-- R27: no instruction and no host operation changes a parameter, `RESET` keeps them, and restoring a snapshot taken
under a different `MEM_SIZE` is `SnapshotMismatch`. -/
def Obligations.ParametersNeverChange : Prop :=
  (∀ (i : Instr) (s t : State), exec i s = .next t → t.cfg = s.cfg) ∧
  (∀ (op : HostOp) (s : State), (perform op s).1.cfg = s.cfg) ∧
  (∀ s u : State, u.cfg.memSize ≠ s.cfg.memSize → perform (.restore u.snapshot) s = (s, .snapshotMismatch))

/-- Post-step mutators, where a session admits them (70_reset_and_hazards.md section 5; D15, log entry 15; which state each
one reads is the model's choice, log entry 23, and no clause rests on it): none fails or alters `pc`, `cycle`, `IMAGE` or a
parameter, any list of them after a step leaves the `pc` and the reply of the step alone, and with none enabled the step is
the step. -/
def Obligations.MutatorsNeverAlterPc : Prop :=
  (∀ (s : State) (d : Mutation), let t := (perform (.mutate d) s).1
    (perform (.mutate d) s).2 = .done ∧ t.pc = s.pc ∧ t.cycle = s.cycle ∧ t.image = s.image ∧ t.cfg = s.cfg) ∧
  (∀ (ms : List (State → Nat → Mutation)) (s : State),
    (performStepWith ms s).1.pc = (perform .step s).1.pc ∧ (performStepWith ms s).2 = (perform .step s).2) ∧
  (∀ s : State, performStepWith [] s = perform .step s)

/-! ### Invariants -/

/-- Every step keeps the invariant: the parameters' constraints, canonical memory within `MEM_SIZE`, and a hard-wired
register 0 that stores 0. -/
def Obligations.EveryStepKeepsInvariant : Prop :=
  ∀ s t : State, s.Inv → step s = .next t → t.Inv

/-- Every operation of the host keeps the invariant, the overlay of R114 with any content and `RESTORE` of any snapshot
included. -/
def Obligations.EveryHostOperationKeepsInvariant : Prop :=
  ∀ (op : HostOp) (s : State), s.Inv → (perform op s).1.Inv

/-- Every instance POWER_ON creates meets the invariant, and so does `State.reset`, the fresh state of the model's reference
parameters (log entry 2). -/
def Obligations.FreshStatesMeetInvariant : Prop :=
  (∀ (c : Config) (s : State), powerOn c = .next s → s.Inv) ∧ State.reset.Inv

/-! ### Assembler forms -/

/-- The assembled words of 30_encoding.md section 5 (D17, log entry 19; the positions of their fields are decision D5, log
entry 4, PRESUMED), the immediate as the low 16 bits of a signed
number in -32768 .. 32767, and none for any other number. -/
def Obligations.AssembledWordsHaveTheirBits : Prop :=
  ∀ (ra rb rc : RegIndex) (n : Int),
    (-32768 ≤ n ∧ n ≤ 32767 →
      (∃ w, (AsmLine.addi ra rb n).assemble = some w ∧
        w.toNat = 0x20000000 + rb.val * 2 ^ 21 + ra.val * 2 ^ 16 + (n % 2 ^ 16).toNat) ∧
      (∃ w, (AsmLine.lw ra n rb).assemble = some w ∧
        w.toNat = 0x8C000000 + rb.val * 2 ^ 21 + ra.val * 2 ^ 16 + (n % 2 ^ 16).toNat)) ∧
    (¬(-32768 ≤ n ∧ n ≤ 32767) → (AsmLine.addi ra rb n).assemble = none ∧ (AsmLine.lw ra n rb).assemble = none) ∧
    ∃ w, (AsmLine.add ra rb rc).assemble = some w ∧
      w.toNat = rb.val * 2 ^ 21 + rc.val * 2 ^ 16 + ra.val * 2 ^ 11 + 0x20

/-- The pseudo-instructions of 30_encoding.md section 5 (D17, log entry 19) do what their names say while `x[0]` reads 0:
`li` loads a signed constant, `move` copies a register, and `nop` does nothing, in permissive mode only. In strict mode
`nop` is an unsupported word; that its fault carries `pc` and the word is decision D7 (60_exceptions.md section 1, log
entry 7). -/
def Obligations.PseudoInstructionsUnderZero : Prop :=
  ∀ (s : State) (ra rb : RegIndex) (n : Int), s.readGpr 0 = 0#32 → -32768 ≤ n ∧ n ≤ 32767 →
    (∃ i t, (AsmLine.li ra n).instr = some i ∧ exec i s = .next t ∧ sameButRegs s t ∧
      onlyRegWritten s t ra (BitVec.ofInt 32 n)) ∧
    (∃ i t, (AsmLine.move ra rb).instr = some i ∧ exec i s = .next t ∧ sameButRegs s t ∧
      onlyRegWritten s t ra (s.readGpr rb)) ∧
    (∃ i, AsmLine.nop.instr = some i ∧ AsmLine.nop.assemble = some 0x00000000#32 ∧
      (s.cfg.strictMode = false → exec i s = .next s) ∧
      (s.cfg.strictMode = true → exec i s = .fault (.unsupportedInstruction s.pc 0x00000000#32)))
end

