-- ==== Sys2Proof/Laws/Decode.lean ====
section
/-! SUPPORT. Laws of the byte order, of byte-sequence decoding, and of the mask and match pairs. -/

namespace Sys2Proof

/-- The numeric value of a big-endian word: the byte at the lowest address counts most (R31, R34). -/
theorem wordOfBytes_toNat (b0 b1 b2 b3 : Byte) :
    (wordOfBytes b0 b1 b2 b3).toNat = b0.toNat * 2 ^ 24 + b1.toNat * 2 ^ 16 + b2.toNat * 2 ^ 8 + b3.toNat := by
  have h1 := b1.isLt
  have h2 := b2.isLt
  have h3 := b3.isLt
  simp only [wordOfBytes, BitVec.toNat_append]
  rw [← Nat.shiftLeft_add_eq_or_of_lt h1, ← Nat.shiftLeft_add_eq_or_of_lt h2, ← Nat.shiftLeft_add_eq_or_of_lt h3]
  simp only [Nat.shiftLeft_eq]
  omega

/-- Byte `k` of a word as a number (R32). -/
theorem wordByte_toNat (v : Word) (k : Nat) : (wordByte v k).toNat = v.toNat / 2 ^ (8 * (3 - k)) % 256 := by
  simp [wordByte, Nat.shiftRight_eq_div_pow]

/-- A word is the word of its four bytes (R34). -/
@[simp] theorem wordOfBytes_wordByte (v : Word) :
    wordOfBytes (wordByte v 0) (wordByte v 1) (wordByte v 2) (wordByte v 3) = v := by
  have hv := v.isLt
  apply BitVec.eq_of_toNat_eq
  rw [wordOfBytes_toNat]
  simp only [wordByte_toNat]
  omega

/-- The four bytes of a word made of four bytes are those bytes (R34). -/
@[simp] theorem wordBytes_wordOfBytes (b0 b1 b2 b3 : Byte) : wordBytes (wordOfBytes b0 b1 b2 b3) = [b0, b1, b2, b3] := by
  have h0 := b0.isLt
  have h1 := b1.isLt
  have h2 := b2.isLt
  have h3 := b3.isLt
  simp only [wordBytes, List.cons.injEq, and_true]
  refine ⟨?_, ?_, ?_, ?_⟩ <;> apply BitVec.eq_of_toNat_eq <;> rw [wordByte_toNat, wordOfBytes_toNat] <;> omega

@[simp] theorem wordBytes_length (v : Word) : (wordBytes v).length = 4 := rfl

/-- The bytes of a word, followed by anything, decode to the instruction of the word (R48). -/
theorem decode_wordBytes (w : Word) (rest : List Byte) : decode (wordBytes w ++ rest) = .ok (decodeWord w, rest) := by
  simp [wordBytes, decode]

/-- A field value, read back as an index, is the index (R53). -/
@[simp] theorem regBits_toFin (r : RegIndex) : (regBits r).toFin = r := by
  revert r; decide

/-- Every byte sequence decodes or is rejected for being shorter than a word. -/
theorem decode_cases (bytes : List Byte) :
    (∃ w rest, bytes = wordBytes w ++ rest ∧ decode bytes = .ok (decodeWord w, rest)) ∨
      (bytes.length < 4 ∧ decode bytes = .error (.tooShort bytes.length)) := by
  match bytes with
  | [] => right; exact ⟨by simp, rfl⟩
  | [_] => right; exact ⟨by simp, rfl⟩
  | [_, _] => right; exact ⟨by simp, rfl⟩
  | [_, _, _] => right; exact ⟨by simp, rfl⟩
  | b0 :: b1 :: b2 :: b3 :: rest => exact .inl ⟨wordOfBytes b0 b1 b2 b3, rest, by simp, rfl⟩

/-! ### The mask and match pairs of R54 in terms of the fields -/

/-- The mask of the I-format rows keeps `op`. -/
theorem and_opMask (w : Word) : w &&& 0xFC000000#32 = (opField w).setWidth 32 <<< 26 := by
  apply BitVec.eq_of_getLsbD_eq
  intro i hi
  interval_cases i <;> simp [opField]

/-- The mask of the ADD row keeps `op` and `funct`. -/
theorem and_addMask (w : Word) :
    w &&& 0xFC00003F#32 = (opField w).setWidth 32 <<< 26 ||| (functField w).setWidth 32 := by
  apply BitVec.eq_of_getLsbD_eq
  intro i hi
  interval_cases i <;> simp [opField, functField]

/-- The ADDI row matches exactly the words R54 gives it. -/
theorem matchesAddi_iff (w : Word) : matchesAddi w = true ↔ opField w = 0x08#6 := by
  simp only [matchesAddi, beq_iff_eq, and_opMask]
  generalize opField w = p
  revert p; decide

/-- The LW row matches exactly the words R54 gives it. -/
theorem matchesLw_iff (w : Word) : matchesLw w = true ↔ opField w = 0x23#6 := by
  simp only [matchesLw, beq_iff_eq, and_opMask]
  generalize opField w = p
  revert p; decide

/-- The ADD row matches exactly the words R54 gives it. -/
theorem matchesAdd_iff (w : Word) : matchesAdd w = true ↔ opField w = 0x00#6 ∧ functField w = 0x20#6 := by
  simp only [matchesAdd, beq_iff_eq, and_addMask]
  generalize opField w = p
  generalize functField w = q
  constructor
  · intro h
    have hp : (p.setWidth 32 <<< 26 ||| q.setWidth 32).extractLsb' 26 6 = p := by
      apply BitVec.eq_of_getLsbD_eq
      intro i hi
      interval_cases i <;> simp
    have hq : (p.setWidth 32 <<< 26 ||| q.setWidth 32).extractLsb' 0 6 = q := by
      apply BitVec.eq_of_getLsbD_eq
      intro i hi
      interval_cases i <;> simp
    rw [h] at hp hq
    exact ⟨hp.symm.trans (by decide), hq.symm.trans (by decide)⟩
  · rintro ⟨rfl, rfl⟩; decide

/-! ### Encoded words and fields as numbers (R11, R60) -/

/-- Concatenation in numbers (R8). -/
theorem toNat_append_eq {m n : Nat} (x : BitVec m) (y : BitVec n) :
    (x ++ y).toNat = x.toNat * 2 ^ n + y.toNat := by
  rw [BitVec.toNat_append, ← Nat.shiftLeft_add_eq_or_of_lt y.isLt, Nat.shiftLeft_eq]

@[simp] theorem regBits_toNat (r : RegIndex) : (regBits r).toNat = r.val := by
  have := r.isLt
  simp [regBits]

/-- `0x20000000 | rs<<21 | rt<<16 | imm` (R60). -/
theorem encode_addi_toNat (rs rt : RegIndex) (imm : BitVec 16) :
    (encode (.addi rs rt imm)).toNat = 0x20000000 + rs.val * 2 ^ 21 + rt.val * 2 ^ 16 + imm.toNat := by
  simp only [encode, toNat_append_eq, regBits_toNat]
  simp
  omega

/-- `0x8C000000 | rs<<21 | rt<<16 | off` (R60). -/
theorem encode_lw_toNat (rs rt : RegIndex) (imm : BitVec 16) :
    (encode (.lw rs rt imm)).toNat = 0x8C000000 + rs.val * 2 ^ 21 + rt.val * 2 ^ 16 + imm.toNat := by
  simp only [encode, toNat_append_eq, regBits_toNat]
  simp
  omega

/-- `rs<<21 | rt<<16 | rd<<11 | 0x20` (R60). -/
theorem encode_add_toNat (rs rt rd : RegIndex) :
    (encode (.add rs rt rd)).toNat = rs.val * 2 ^ 21 + rt.val * 2 ^ 16 + rd.val * 2 ^ 11 + 0x20 := by
  simp only [encode, toNat_append_eq, regBits_toNat]
  simp
  omega

/-- `instr[31:26]` as a number (R8, R11). -/
theorem opField_toNat (w : Word) : (opField w).toNat = w.toNat / 2 ^ 26 := by
  have := w.isLt
  simp [opField, Nat.shiftRight_eq_div_pow]
  omega

/-- `instr[5:0]` as a number (R8, R11). -/
theorem functField_toNat (w : Word) : (functField w).toNat = w.toNat % 2 ^ 6 := by simp [functField]

/-- `instr[15:0]` as a number (R8, R11). -/
theorem immField_toNat (w : Word) : (immField w).toNat = w.toNat % 2 ^ 16 := by simp [immField]

/-- `instr[25:21]` as a number (R8, R11). -/
theorem rsField_val (w : Word) : (rsField w).val = w.toNat / 2 ^ 21 % 32 := by
  simp [rsField, Nat.shiftRight_eq_div_pow]

/-- `instr[20:16]` as a number (R8, R11). -/
theorem rtField_val (w : Word) : (rtField w).val = w.toNat / 2 ^ 16 % 32 := by
  simp [rtField, Nat.shiftRight_eq_div_pow]

/-- `instr[15:11]` as a number (R8, R11). -/
theorem rdField_val (w : Word) : (rdField w).val = w.toNat / 2 ^ 11 % 32 := by
  simp [rdField, Nat.shiftRight_eq_div_pow]

/-- `instr[10:6]` as a number (R8, R11). -/
theorem shamtField_toNat (w : Word) : (shamtField w).toNat = w.toNat / 2 ^ 6 % 32 := by
  simp [shamtField, Nat.shiftRight_eq_div_pow]

end Sys2Proof
end

