-- ==== Sys2Proof/Laws/Memory.lean ====
section
/-! SUPPORT. RAM as a list in canonical form: what a byte or block write does to every read, that every memory operation
keeps the form and the size, and that memories in the form are determined by what they read as. -/

namespace Sys2Proof.Machine.Memory

theorem wfFrom_cons {lo a : Nat} {b : Byte} {rest : Memory} :
    Memory.wfFrom lo ((a, b) :: rest) = true ↔ lo ≤ a ∧ b ≠ 0#8 ∧ Memory.wfFrom (a + 1) rest = true := by
  simp [Memory.wfFrom, and_assoc]

theorem wfFrom_mono {lo lo' : Nat} {m : Memory} (h : lo' ≤ lo) (hm : Memory.wfFrom lo m = true) :
    Memory.wfFrom lo' m = true := by
  cases m with
  | nil => rfl
  | cons c rest =>
    obtain ⟨a, b⟩ := c
    rw [wfFrom_cons] at hm ⊢
    exact ⟨h.trans hm.1, hm.2⟩

/-- Below its first offset a memory reads 0. -/
theorem readByte_below {lo a : Nat} {m : Memory} (hm : Memory.wfFrom lo m = true) (ha : a < lo) :
    readByte m a = 0#8 := by
  induction m generalizing lo with
  | nil => rfl
  | cons c rest ih =>
    obtain ⟨k, b⟩ := c
    rw [wfFrom_cons] at hm
    simp only [readByte]
    rw [if_neg (by omega)]
    exact ih hm.2.2 (by omega)

theorem wfFrom_writeByte {lo a : Nat} {m : Memory} (v : Byte) (hm : Memory.wfFrom lo m = true) (ha : lo ≤ a) :
    Memory.wfFrom lo (writeByte m a v) = true := by
  induction m generalizing lo with
  | nil =>
    by_cases hv : v = 0#8
    · simp [writeByte, hv, Memory.wfFrom]
    · simp [writeByte, hv, Memory.wfFrom, ha]
  | cons c rest ih =>
    obtain ⟨k, b⟩ := c
    have hm' := wfFrom_cons.mp hm
    simp only [writeByte]
    split
    · split
      · exact hm
      · exact wfFrom_cons.mpr ⟨ha, ‹_›, wfFrom_cons.mpr ⟨by omega, hm'.2⟩⟩
    · split
      · split
        · exact wfFrom_mono (by omega) hm'.2.2
        · exact wfFrom_cons.mpr ⟨ha, ‹_›, wfFrom_mono (by omega) hm'.2.2⟩
      · exact wfFrom_cons.mpr ⟨hm'.1, hm'.2.1, ih hm'.2.2 (by omega)⟩

/-- A byte write keeps the canonical form. -/
theorem wf_writeByte {m : Memory} (a : Nat) (v : Byte) (hm : Memory.wf m = true) : Memory.wf (writeByte m a v) = true :=
  wfFrom_writeByte v hm (Nat.zero_le a)

theorem readByte_writeByte_from {lo a : Nat} {m : Memory} (v : Byte) (b : Nat) (hm : Memory.wfFrom lo m = true) :
    readByte (writeByte m a v) b = if b = a then v else readByte m b := by
  induction m generalizing lo with
  | nil =>
    by_cases hv : v = 0#8
    · simp [writeByte, hv, readByte]
    · simp [writeByte, hv, readByte, eq_comm]
  | cons c rest ih =>
    obtain ⟨k, w⟩ := c
    have hm' := wfFrom_cons.mp hm
    simp only [writeByte]
    split
    · split
      · by_cases hb : b = a
        · rw [if_pos hb]
          simp only [readByte]
          rw [if_neg (by omega), readByte_below hm'.2.2 (by omega)]
          exact ‹v = 0#8›.symm
        · rw [if_neg hb]
      · by_cases hb : b = a
        · simp [readByte, hb]
        · rw [if_neg hb]; simp only [readByte]; rw [if_neg (Ne.symm hb)]
    · split
      · have hak : a = k := ‹_›
        subst hak
        split
        · by_cases hb : b = a
          · rw [if_pos hb, readByte_below hm'.2.2 (by omega)]; exact ‹v = 0#8›.symm
          · rw [if_neg hb]; simp only [readByte]; rw [if_neg (Ne.symm hb)]
        · by_cases hb : b = a
          · simp [readByte, hb]
          · rw [if_neg hb]; simp only [readByte]; rw [if_neg (Ne.symm hb), if_neg (Ne.symm hb)]
      · simp only [readByte]
        rw [ih hm'.2.2]
        by_cases hk : k = b
        · rw [if_pos hk, if_pos hk, if_neg (by omega)]
        · rw [if_neg hk, if_neg hk]

/-- Read after a byte write: the value at that offset, the old byte at every other (R32, R37). -/
theorem readByte_writeByte {m : Memory} (a : Nat) (v : Byte) (b : Nat) (hm : Memory.wf m = true) :
    readByte (writeByte m a v) b = if b = a then v else readByte m b := readByte_writeByte_from v b hm

theorem within_cons {n a : Nat} {b : Byte} {rest : Memory} :
    Memory.within n ((a, b) :: rest) = true ↔ a < n ∧ Memory.within n rest = true := by
  simp [Memory.within]

theorem within_writeByte {n a : Nat} {m : Memory} (v : Byte) (hm : Memory.within n m = true) (ha : a < n) :
    Memory.within n (writeByte m a v) = true := by
  induction m with
  | nil =>
    by_cases hv : v = 0#8
    · simp [writeByte, hv, Memory.within]
    · simp [writeByte, hv, Memory.within, ha]
  | cons c rest ih =>
    obtain ⟨k, b⟩ := c
    have hm' := within_cons.mp hm
    simp only [writeByte]
    split
    · split
      · exact hm
      · exact within_cons.mpr ⟨ha, hm⟩
    · split
      · split
        · exact hm'.2
        · exact within_cons.mpr ⟨ha, hm'.2⟩
      · exact within_cons.mpr ⟨hm'.1, ih hm'.2⟩

/-- Past the size every byte reads 0. -/
theorem readByte_outside {n a : Nat} {m : Memory} (hm : Memory.within n m = true) (ha : n ≤ a) : readByte m a = 0#8 := by
  induction m with
  | nil => rfl
  | cons c rest ih =>
    obtain ⟨k, b⟩ := c
    have hm' := within_cons.mp hm
    simp only [readByte]
    rw [if_neg (by omega), ih hm'.2]

/-! ### Blocks -/

/-- A block write keeps the canonical form. -/
theorem wf_writeBytes {m : Memory} (a : Nat) (bytes : List Byte) (hm : Memory.wf m = true) :
    Memory.wf (writeBytes m a bytes) = true := by
  induction bytes generalizing m a with
  | nil => exact hm
  | cons b rest ih => exact ih (a + 1) (wf_writeByte a b hm)

theorem within_writeBytes {n : Nat} {m : Memory} (a : Nat) (bytes : List Byte) (hm : Memory.within n m = true)
    (ha : a + bytes.length ≤ n) : Memory.within n (writeBytes m a bytes) = true := by
  induction bytes generalizing m a with
  | nil => exact hm
  | cons b rest ih =>
    simp only [List.length_cons] at ha
    exact ih (a + 1) (within_writeByte b hm (by omega)) (by omega)

/-- Read after a block write: byte `b - a` of the block inside it, the old byte outside it. -/
theorem readByte_writeBytes {m : Memory} (a : Nat) (bytes : List Byte) (b : Nat) (hm : Memory.wf m = true) :
    readByte (writeBytes m a bytes) b =
      if a ≤ b ∧ b < a + bytes.length then bytes.getD (b - a) 0#8 else readByte m b := by
  induction bytes generalizing m a with
  | nil => rw [if_neg (by simp)]; rfl
  | cons c rest ih =>
    simp only [writeBytes, List.length_cons]
    rw [ih (a + 1) (wf_writeByte a c hm), readByte_writeByte a c b hm]
    by_cases hin : a + 1 ≤ b ∧ b < a + 1 + rest.length
    · rw [if_pos hin, if_pos (by omega), show b - a = (b - (a + 1)) + 1 by omega]
      rfl
    · rw [if_neg hin]
      by_cases hb : b = a
      · rw [if_pos hb, if_pos (by omega), hb]; simp
      · rw [if_neg hb, if_neg (by omega)]

@[simp] theorem length_readBytes (m : Memory) (a n : Nat) : (readBytes m a n).length = n := by
  induction n generalizing a with
  | zero => rfl
  | succ n ih => simp [readBytes, ih]

theorem getD_readBytes (m : Memory) (a n k : Nat) (h : k < n) : (readBytes m a n).getD k 0#8 = readByte m (a + k) := by
  induction n generalizing a k with
  | zero => omega
  | succ n ih =>
    cases k with
    | zero => rfl
    | succ k =>
      have := ih (a + 1) k (by omega)
      simpa [readBytes, Nat.add_assoc, Nat.add_comm 1 k] using this

/-! ### Canonical forms are determined by what they read as -/

theorem ext_from {lo : Nat} {m m' : Memory} (hm : Memory.wfFrom lo m = true) (hm' : Memory.wfFrom lo m' = true)
    (h : ∀ a, readByte m a = readByte m' a) : m = m' := by
  induction m generalizing lo m' with
  | nil =>
    cases m' with
    | nil => rfl
    | cons c rest =>
      obtain ⟨k, b⟩ := c
      have hne := (wfFrom_cons.mp hm').2.1
      have := h k
      simp [readByte] at this
      exact absurd this.symm hne
  | cons c rest ih =>
    obtain ⟨k, b⟩ := c
    have h1 := wfFrom_cons.mp hm
    cases m' with
    | nil =>
      have := h k
      simp [readByte] at this
      exact absurd this h1.2.1
    | cons c' rest' =>
      obtain ⟨k', b'⟩ := c'
      have h2 := wfFrom_cons.mp hm'
      have hk : k = k' := by
        rcases Nat.lt_trichotomy k k' with hlt | heq | hgt
        · have := h k
          simp only [readByte, if_pos] at this
          rw [if_neg (by omega), readByte_below h2.2.2 (by omega)] at this
          exact absurd this h1.2.1
        · exact heq
        · have := h k'
          simp only [readByte, if_pos] at this
          rw [if_neg (by omega), readByte_below h1.2.2 (by omega)] at this
          exact absurd this.symm h2.2.1
      subst hk
      have hb : b = b' := by simpa [readByte] using h k
      subst hb
      have hrest : rest = rest' := by
        refine ih h1.2.2 h2.2.2 fun a => ?_
        by_cases ha : k = a
        · subst ha
          rw [readByte_below h1.2.2 (by omega), readByte_below h2.2.2 (by omega)]
        · have := h a
          simpa [readByte, ha] using this
      rw [hrest]

/-- Two memories in canonical form that read the same at every offset are the same list. -/
theorem ext {m m' : Memory} (hm : Memory.wf m = true) (hm' : Memory.wf m' = true)
    (h : ∀ a, readByte m a = readByte m' a) : m = m' := ext_from hm hm' h

/-- Storing the whole array read from a memory rebuilds it (what RESTORE does with a snapshot, R109). -/
theorem writeBytes_readBytes {n : Nat} {m : Memory} (hm : Memory.wf m = true) (hn : Memory.within n m = true) :
    writeBytes [] 0 (readBytes m 0 n) = m := by
  refine ext (wf_writeBytes 0 _ rfl) hm fun a => ?_
  rw [readByte_writeBytes 0 _ a rfl, length_readBytes]
  by_cases ha : a < n
  · rw [if_pos (by omega), getD_readBytes m 0 n (a - 0) (by omega)]; simp
  · rw [if_neg (by omega), readByte_outside hn (by omega)]; rfl

theorem wf_pokeBytes {n : Nat} {m : Memory} (writes : List (Nat × Byte)) (hm : Memory.wf m = true) :
    Memory.wf (pokeBytes n m writes) = true := by
  induction writes generalizing m with
  | nil => exact hm
  | cons w rest ih =>
    obtain ⟨a, b⟩ := w
    simp only [pokeBytes]
    split
    · exact ih (wf_writeByte a b hm)
    · exact ih hm

theorem within_pokeBytes {n : Nat} {m : Memory} (writes : List (Nat × Byte)) (hm : Memory.within n m = true) :
    Memory.within n (pokeBytes n m writes) = true := by
  induction writes generalizing m with
  | nil => exact hm
  | cons w rest ih =>
    obtain ⟨a, b⟩ := w
    simp only [pokeBytes]
    split
    · exact ih (within_writeByte b hm ‹_›)
    · exact ih hm

end Sys2Proof.Machine.Memory
end

