-- ==== Sys2Proof/Laws/State.lean ====
section
/-! SUPPORT. One lemma per field per update of `State`, true by rfl, so that no later proof unfolds a record update; and
the same for the phases of a step, a register write and a memory write. -/

namespace Sys2Proof.Machine.State

variable (s : State)

@[simp] theorem setRegs_cfg (v : Vector Word 32) : (s.setRegs v).cfg = s.cfg := rfl
@[simp] theorem setRegs_regs (v : Vector Word 32) : (s.setRegs v).regs = v := rfl
@[simp] theorem setRegs_pc (v : Vector Word 32) : (s.setRegs v).pc = s.pc := rfl
@[simp] theorem setRegs_cycle (v : Vector Word 32) : (s.setRegs v).cycle = s.cycle := rfl
@[simp] theorem setRegs_mem (v : Vector Word 32) : (s.setRegs v).mem = s.mem := rfl
@[simp] theorem setRegs_image (v : Vector Word 32) : (s.setRegs v).image = s.image := rfl

@[simp] theorem setPc_cfg (v : Word) : (s.setPc v).cfg = s.cfg := rfl
@[simp] theorem setPc_regs (v : Word) : (s.setPc v).regs = s.regs := rfl
@[simp] theorem setPc_pc (v : Word) : (s.setPc v).pc = v := rfl
@[simp] theorem setPc_cycle (v : Word) : (s.setPc v).cycle = s.cycle := rfl
@[simp] theorem setPc_mem (v : Word) : (s.setPc v).mem = s.mem := rfl
@[simp] theorem setPc_image (v : Word) : (s.setPc v).image = s.image := rfl

@[simp] theorem setCycle_cfg (v : Nat) : (s.setCycle v).cfg = s.cfg := rfl
@[simp] theorem setCycle_regs (v : Nat) : (s.setCycle v).regs = s.regs := rfl
@[simp] theorem setCycle_pc (v : Nat) : (s.setCycle v).pc = s.pc := rfl
@[simp] theorem setCycle_cycle (v : Nat) : (s.setCycle v).cycle = v := rfl
@[simp] theorem setCycle_mem (v : Nat) : (s.setCycle v).mem = s.mem := rfl
@[simp] theorem setCycle_image (v : Nat) : (s.setCycle v).image = s.image := rfl

@[simp] theorem setMem_cfg (v : Memory) : (s.setMem v).cfg = s.cfg := rfl
@[simp] theorem setMem_regs (v : Memory) : (s.setMem v).regs = s.regs := rfl
@[simp] theorem setMem_pc (v : Memory) : (s.setMem v).pc = s.pc := rfl
@[simp] theorem setMem_cycle (v : Memory) : (s.setMem v).cycle = s.cycle := rfl
@[simp] theorem setMem_mem (v : Memory) : (s.setMem v).mem = v := rfl
@[simp] theorem setMem_image (v : Memory) : (s.setMem v).image = s.image := rfl

@[simp] theorem setImage_cfg (v : Option (List Byte)) : (s.setImage v).cfg = s.cfg := rfl
@[simp] theorem setImage_regs (v : Option (List Byte)) : (s.setImage v).regs = s.regs := rfl
@[simp] theorem setImage_pc (v : Option (List Byte)) : (s.setImage v).pc = s.pc := rfl
@[simp] theorem setImage_cycle (v : Option (List Byte)) : (s.setImage v).cycle = s.cycle := rfl
@[simp] theorem setImage_mem (v : Option (List Byte)) : (s.setImage v).mem = s.mem := rfl
@[simp] theorem setImage_image (v : Option (List Byte)) : (s.setImage v).image = v := rfl

@[simp] theorem advancePc_cfg : s.advancePc.cfg = s.cfg := rfl
@[simp] theorem advancePc_regs : s.advancePc.regs = s.regs := rfl
@[simp] theorem advancePc_pc : s.advancePc.pc = s.pc + 4#32 := rfl
@[simp] theorem advancePc_cycle : s.advancePc.cycle = s.cycle := rfl
@[simp] theorem advancePc_mem : s.advancePc.mem = s.mem := rfl
@[simp] theorem advancePc_image : s.advancePc.image = s.image := rfl

@[simp] theorem countCycle_cfg : s.countCycle.cfg = s.cfg := rfl
@[simp] theorem countCycle_regs : s.countCycle.regs = s.regs := rfl
@[simp] theorem countCycle_pc : s.countCycle.pc = s.pc := rfl
@[simp] theorem countCycle_cycle : s.countCycle.cycle = s.cycle + 1 := rfl
@[simp] theorem countCycle_mem : s.countCycle.mem = s.mem := rfl
@[simp] theorem countCycle_image : s.countCycle.image = s.image := rfl

@[simp] theorem writeGpr_cfg (i : RegIndex) (v : Word) : (s.writeGpr i v).cfg = s.cfg := by
  unfold writeGpr; split <;> rfl
@[simp] theorem writeGpr_pc (i : RegIndex) (v : Word) : (s.writeGpr i v).pc = s.pc := by
  unfold writeGpr; split <;> rfl
@[simp] theorem writeGpr_cycle (i : RegIndex) (v : Word) : (s.writeGpr i v).cycle = s.cycle := by
  unfold writeGpr; split <;> rfl
@[simp] theorem writeGpr_mem (i : RegIndex) (v : Word) : (s.writeGpr i v).mem = s.mem := by
  unfold writeGpr; split <;> rfl
@[simp] theorem writeGpr_image (i : RegIndex) (v : Word) : (s.writeGpr i v).image = s.image := by
  unfold writeGpr; split <;> rfl

@[simp] theorem memWrite_cfg (a v : Word) : (s.memWrite a v).cfg = s.cfg := by
  unfold memWrite; split <;> rfl
@[simp] theorem memWrite_regs (a v : Word) : (s.memWrite a v).regs = s.regs := by
  unfold memWrite; split <;> rfl
@[simp] theorem memWrite_pc (a v : Word) : (s.memWrite a v).pc = s.pc := by
  unfold memWrite; split <;> rfl
@[simp] theorem memWrite_cycle (a v : Word) : (s.memWrite a v).cycle = s.cycle := by
  unfold memWrite; split <;> rfl
@[simp] theorem memWrite_image (a v : Word) : (s.memWrite a v).image = s.image := by
  unfold memWrite; split <;> rfl

@[simp] theorem fresh_cfg (c : Config) : (State.fresh c).cfg = c := rfl
@[simp] theorem fresh_pc (c : Config) : (State.fresh c).pc = c.resetVector := rfl
@[simp] theorem fresh_cycle (c : Config) : (State.fresh c).cycle = 0 := rfl
@[simp] theorem fresh_mem (c : Config) : (State.fresh c).mem = [] := rfl
@[simp] theorem fresh_image (c : Config) : (State.fresh c).image = none := rfl

theorem fresh_reg (c : Config) (i : RegIndex) : (State.fresh c).regs[i] = 0#32 := by simp [State.fresh]

/-- Two states with the same fields are the same. -/
theorem ext_fields {s t : State} (hc : t.cfg = s.cfg) (hr : ∀ i : RegIndex, t.regs[i] = s.regs[i]) (hp : t.pc = s.pc)
    (hy : t.cycle = s.cycle) (hm : t.mem = s.mem) (hi : t.image = s.image) : t = s := by
  have hregs : t.regs = s.regs := by
    apply Vector.ext
    intro i hlt
    exact hr ⟨i, hlt⟩
  cases s; cases t; simp_all

end Sys2Proof.Machine.State
end

