-- ==== Sys2Proof/Laws/Ops.lean ====
section
/-! SUPPORT. One law per shared operation: translation, the two port operations, the register file, the operands. -/

namespace Sys2Proof.Machine

/-! ### Translation (R29, R30) -/

/-- In range, in natural numbers: `KSEG_BASE <= vaddr` and `vaddr + 4 <= KSEG_BASE + MEM_SIZE` (R30). -/
theorem inRange_iff (c : Config) (v : Word) :
    inRange c v = true ↔ c.ksegBase.toNat ≤ v.toNat ∧ v.toNat + 4 ≤ c.ksegBase.toNat + c.memSize := by
  simp only [inRange, Bool.and_eq_true, decide_eq_true_eq]
  simp only [phys]
  omega

theorem inRange_eq_false_iff (c : Config) (v : Word) :
    inRange c v = false ↔ ¬(c.ksegBase.toNat ≤ v.toNat ∧ v.toNat + 4 ≤ c.ksegBase.toNat + c.memSize) := by
  rw [← inRange_iff, Bool.not_eq_true]

theorem physIndex_eq (c : Config) (v : Word) : physIndex c v = v.toNat - c.ksegBase.toNat := by
  simp only [physIndex, phys]
  omega

/-- All four bytes of an in-range access lie inside `MEM` (R30). -/
theorem physIndex_add_four_le {c : Config} {v : Word} (h : inRange c v = true) : physIndex c v + 4 ≤ c.memSize := by
  rw [inRange_iff] at h
  rw [physIndex_eq]
  omega

/-! ### The port operations (R31, R32) -/

theorem memRead_inRange {s : State} {v : Word} (h : inRange s.cfg v = true) :
    s.memRead v = wordOfBytes (readByte s.mem (physIndex s.cfg v)) (readByte s.mem (physIndex s.cfg v + 1))
      (readByte s.mem (physIndex s.cfg v + 2)) (readByte s.mem (physIndex s.cfg v + 3)) := by
  simp [State.memRead, h]

theorem memRead_outOfRange {s : State} {v : Word} (h : inRange s.cfg v = false) : s.memRead v = 0x00000000#32 := by
  simp [State.memRead, h]

/-- A read depends on the parameters and on RAM alone. -/
theorem memRead_congr {s t : State} (hc : t.cfg = s.cfg) (hm : t.mem = s.mem) (v : Word) : t.memRead v = s.memRead v := by
  simp only [State.memRead, hc, hm]

theorem memWrite_outOfRange {s : State} {v w : Word} (h : inRange s.cfg v = false) : s.memWrite v w = s := by
  simp [State.memWrite, h]

theorem memWrite_mem_inRange {s : State} {v w : Word} (h : inRange s.cfg v = true) :
    (s.memWrite v w).mem = writeBytes s.mem (physIndex s.cfg v) (wordBytes w) := by
  simp [State.memWrite, h]

/-- Every byte after an in-range write: byte `k` of the word at `phys + k`, the old byte elsewhere (R32). -/
theorem readByte_memWrite {s : State} {v w : Word} (hm : Memory.wf s.mem = true) (h : inRange s.cfg v = true) (a : Nat) :
    readByte (s.memWrite v w).mem a =
      if physIndex s.cfg v ≤ a ∧ a < physIndex s.cfg v + 4 then wordByte w (a - physIndex s.cfg v)
      else readByte s.mem a := by
  rw [memWrite_mem_inRange h, Memory.readByte_writeBytes _ _ _ hm, wordBytes_length]
  split
  · obtain ⟨k, hk⟩ : ∃ k, a = physIndex s.cfg v + k := ⟨a - physIndex s.cfg v, by omega⟩
    have hk4 : k < 4 := by omega
    rw [hk, Nat.add_sub_cancel_left]
    interval_cases k <;> rfl
  · rfl

/-- A port write keeps the canonical form. -/
theorem wf_memWrite {s : State} (v w : Word) (hm : Memory.wf s.mem = true) : Memory.wf (s.memWrite v w).mem = true := by
  cases h : inRange s.cfg v
  · rw [memWrite_outOfRange h]; exact hm
  · rw [memWrite_mem_inRange h]; exact Memory.wf_writeBytes _ _ hm

/-- A port write stays within the array. -/
theorem within_memWrite {s : State} (v w : Word) (hm : Memory.within s.cfg.memSize s.mem = true) :
    Memory.within s.cfg.memSize (s.memWrite v w).mem = true := by
  cases h : inRange s.cfg v
  · rw [memWrite_outOfRange h]; exact hm
  · rw [memWrite_mem_inRange h]
    exact Memory.within_writeBytes _ _ hm (by rw [wordBytes_length]; exact physIndex_add_four_le h)

/-! ### The register file (R10, R15) -/

theorem isHardwired_iff (c : Config) (i : RegIndex) : isHardwired c i = true ↔ c.zeroRegHardwired = true ∧ i = 0 := by
  simp [isHardwired]

/-- Every register read after a register write: the value at its index unless that is a hard-wired register 0, the old
value elsewhere (R15). -/
theorem readGpr_writeGpr (s : State) (i : RegIndex) (v : Word) (j : RegIndex) :
    (s.writeGpr i v).readGpr j = if j = i ∧ isHardwired s.cfg i = false then v else s.readGpr j := by
  unfold State.writeGpr
  cases h : isHardwired s.cfg i
  · by_cases hj : j = i
    · subst hj; simp [State.readGpr, h]
    · have hne : i.val ≠ j.val := fun e => hj (Fin.ext e.symm)
      simp [State.readGpr, hj, hne]
  · simp

/-- A read depends on the parameters and on the stored registers alone. -/
theorem readGpr_congr {s t : State} (hc : t.cfg = s.cfg) (hr : t.regs = s.regs) (i : RegIndex) :
    t.readGpr i = s.readGpr i := by
  simp only [State.readGpr, hc, hr]

/-- A register write keeps what a hard-wired register 0 stores. -/
theorem writeGpr_reg_zero {s : State} (i : RegIndex) (v : Word) (h : s.cfg.zeroRegHardwired = true) :
    (s.writeGpr i v).regs[(0 : RegIndex)] = s.regs[(0 : RegIndex)] := by
  unfold State.writeGpr
  by_cases hi : i = 0
  · simp [isHardwired, h, hi]
  · have hne : i.val ≠ 0 := fun e => hi (Fin.ext e)
    simp [isHardwired, hi, hne]

/-! ### Operands (R9, R76) -/

/-- `sext_32` by cases on bit 15, as R9 defines it, in numbers. -/
theorem sext32_toNat (imm : BitVec 16) :
    (sext32 imm).toNat = if imm.toNat < 0x8000 then imm.toNat else imm.toNat + 0xFFFF0000 := by
  have h := imm.isLt
  have hw : (imm.setWidth 32).toNat = imm.toNat := by
    rw [BitVec.toNat_setWidth]; omega
  rw [sext32, BitVec.toNat_signExtend, hw, BitVec.msb_eq_decide]
  by_cases hlt : imm.toNat < 0x8000
  · rw [if_pos hlt, if_neg (by simpa using hlt)]; rfl
  · rw [if_neg hlt, if_pos (by simpa using hlt)]

end Sys2Proof.Machine
end

