-- ==== Sys2Proof/Laws/HostOps.lean ====
section
/-! SUPPORT. One law per host operation, and one lemma per field of the state it leaves. -/

namespace Sys2Proof.Machine

/-! ### Boot transfer, image load and reset (R102, R104) -/

@[simp] theorem bootTransfer_cfg (s : State) (img : List Byte) : (s.bootTransfer img).cfg = s.cfg := rfl
@[simp] theorem bootTransfer_regs (s : State) (img : List Byte) : (s.bootTransfer img).regs = s.regs := rfl
@[simp] theorem bootTransfer_pc (s : State) (img : List Byte) : (s.bootTransfer img).pc = entryPc s.cfg := rfl
@[simp] theorem bootTransfer_cycle (s : State) (img : List Byte) : (s.bootTransfer img).cycle = s.cycle := rfl
@[simp] theorem bootTransfer_image (s : State) (img : List Byte) : (s.bootTransfer img).image = s.image := rfl
theorem bootTransfer_mem (s : State) (img : List Byte) :
    (s.bootTransfer img).mem = writeBytes s.mem 0 (img.take (min bootXferLen s.cfg.memSize)) := rfl

/-- Every byte after a boot transfer: the first `min(len, 4096, MEM_SIZE)` are the image's, the others the old ones. -/
theorem readByte_bootTransfer {s : State} (hm : Memory.wf s.mem = true) (img : List Byte) (a : Nat) :
    readByte (s.bootTransfer img).mem a =
      if a < min img.length (min bootXferLen s.cfg.memSize) then img.getD a 0#8 else readByte s.mem a := by
  rw [bootTransfer_mem, Memory.readByte_writeBytes 0 _ a hm, List.length_take]
  generalize bootXferLen = n
  by_cases h : a < min img.length (min n s.cfg.memSize)
  · have hn : a < min n s.cfg.memSize := by omega
    rw [if_pos h, if_pos (by omega), Nat.sub_zero]
    simp only [List.getD, List.getElem?_take, if_pos hn]
  · rw [if_neg h, if_neg (by omega)]

theorem wf_bootTransfer {s : State} (img : List Byte) (hm : Memory.wf s.mem = true) :
    Memory.wf (s.bootTransfer img).mem = true := Memory.wf_writeBytes _ _ hm

theorem within_bootTransfer {s : State} (img : List Byte) (hm : Memory.within s.cfg.memSize s.mem = true) :
    Memory.within s.cfg.memSize (s.bootTransfer img).mem = true := by
  rw [bootTransfer_mem]
  refine Memory.within_writeBytes _ _ hm ?_
  rw [List.length_take]
  generalize bootXferLen = n
  omega

@[simp] theorem loadImage_eq (s : State) (img : List Byte) :
    s.loadImage img = (s.setImage (some img)).bootTransfer img := rfl

theorem resetOp_none {s : State} (h : s.image = none) : s.resetOp = State.fresh s.cfg := by
  simp [State.resetOp, h]

theorem resetOp_some {s : State} {img : List Byte} (h : s.image = some img) :
    s.resetOp = ((State.fresh s.cfg).setImage (some img)).bootTransfer img := by
  simp [State.resetOp, h]

/-- Every register of a new instance reads 0, hard-wired or not (R25). -/
@[simp] theorem readGpr_fresh (c : Config) (i : RegIndex) : (State.fresh c).readGpr i = 0#32 := by
  unfold State.readGpr
  split
  · rfl
  · exact State.fresh_reg c i

/-! ### Snapshot and restore (R108, R109) -/

theorem fits_iff (p : Snapshot) (c : Config) :
    p.fits c = true ↔ p.words.length = 33 ∧ p.bytes.length = c.memSize := by
  simp [Snapshot.fits]

@[simp] theorem snapshot_words_length (s : State) : s.snapshot.words.length = 33 := by
  simp [State.snapshot, State.gprWords]

@[simp] theorem snapshot_bytes (s : State) : s.snapshot.bytes = readBytes s.mem 0 s.cfg.memSize := rfl

@[simp] theorem snapshot_cycle (s : State) : s.snapshot.cycle = s.cycle := rfl

/-- Words 0 to 31 of a snapshot are the registers as an instruction would read them (R108, D24). -/
theorem snapshot_word_reg (s : State) (i : RegIndex) : s.snapshot.words.getD i.val 0#32 = s.readGpr i := by
  have hlen : i.val < s.gprWords.length := by rw [State.gprWords, List.length_ofFn]; exact i.isLt
  rw [State.snapshot, List.getD_append _ _ _ _ hlen, List.getD_eq_getElem _ _ hlen]
  simp only [State.gprWords, List.getElem_ofFn]

/-- Word 32 of a snapshot is `pc` (R108). -/
theorem snapshot_word_pc (s : State) : s.snapshot.words.getD 32 0#32 = s.pc := by
  simp [State.snapshot, State.gprWords, List.getD]

@[simp] theorem replaceBy_cfg (s : State) (p : Snapshot) : (s.replaceBy p).cfg = s.cfg := by
  simp only [State.replaceBy, State.setMem_cfg, State.setCycle_cfg, State.setPc_cfg, State.setRegs_cfg]
@[simp] theorem replaceBy_pc (s : State) (p : Snapshot) : (s.replaceBy p).pc = p.words.getD 32 0#32 := rfl
@[simp] theorem replaceBy_cycle (s : State) (p : Snapshot) : (s.replaceBy p).cycle = p.cycle := rfl
@[simp] theorem replaceBy_mem (s : State) (p : Snapshot) : (s.replaceBy p).mem = writeBytes [] 0 p.bytes := rfl
@[simp] theorem replaceBy_image (s : State) (p : Snapshot) : (s.replaceBy p).image = s.image := by
  simp only [State.replaceBy, State.setMem_image, State.setCycle_image, State.setPc_image, State.setRegs_image]
theorem replaceBy_reg (s : State) (p : Snapshot) (i : RegIndex) :
    (s.replaceBy p).regs[i] = if isHardwired s.cfg i then 0#32 else p.words.getD i.val 0#32 := by
  simp only [State.replaceBy, State.setMem_regs, State.setCycle_regs, State.setPc_regs, State.setRegs_regs,
    Snapshot.regs, Fin.getElem_fin, Vector.getElem_ofFn]

theorem perform_restore_fits {s : State} {p : Snapshot} (h : p.fits s.cfg = true) :
    perform (.restore p) s = (s.replaceBy p, .done) := by
  simp only [perform, h, if_true]

theorem perform_restore_mismatch {s : State} {p : Snapshot} (h : p.fits s.cfg = false) :
    perform (.restore p) s = (s, .snapshotMismatch) := by
  simp only [perform, h, Bool.false_eq_true, if_false]

/-! ### Mutations (R114) -/

/-- A list of register writes touches nothing but registers. -/
theorem writeGprs_fields (s : State) (writes : List (RegIndex × Word)) :
    (s.writeGprs writes).cfg = s.cfg ∧ (s.writeGprs writes).pc = s.pc ∧ (s.writeGprs writes).cycle = s.cycle ∧
      (s.writeGprs writes).mem = s.mem ∧ (s.writeGprs writes).image = s.image := by
  induction writes generalizing s with
  | nil => simp [State.writeGprs]
  | cons w rest ih => simpa [State.writeGprs] using ih (s.writeGpr w.1 w.2)

/-- A list of register writes keeps what a hard-wired register 0 stores. -/
theorem writeGprs_reg_zero {s : State} (writes : List (RegIndex × Word)) (h : s.cfg.zeroRegHardwired = true) :
    (s.writeGprs writes).regs[(0 : RegIndex)] = s.regs[(0 : RegIndex)] := by
  induction writes generalizing s with
  | nil => rfl
  | cons w rest ih =>
    simp only [State.writeGprs]
    rw [ih (by simpa using h), writeGpr_reg_zero _ _ h]

/-- What a mutation leaves: `pc`, `cycle`, `IMAGE` and the parameters as they were, `MEM` with the bytes poked. -/
theorem mutate_fields (s : State) (d : Mutation) :
    (s.mutate d).cfg = s.cfg ∧ (s.mutate d).pc = s.pc ∧ (s.mutate d).cycle = s.cycle ∧ (s.mutate d).image = s.image ∧
      (s.mutate d).regs = (s.writeGprs d.regWrites).regs ∧
      (s.mutate d).mem = pokeBytes s.cfg.memSize s.mem d.byteWrites := by
  obtain ⟨hc, hp, hy, hm, hi⟩ := writeGprs_fields s d.regWrites
  refine ⟨hc, hp, hy, hi, rfl, ?_⟩
  simp only [State.mutate, State.setMem_mem, hc, hm]

/-- What a list of mutators leaves, whatever state each one reads (log entry 23): `pc`, `cycle`, `IMAGE`, the parameters. -/
theorem mutators_fields (mutators : List (State → Nat → Mutation)) (s : State) :
    let t := mutators.foldl (fun u f => u.mutate (f u u.cycle)) s
    t.cfg = s.cfg ∧ t.pc = s.pc ∧ t.cycle = s.cycle ∧ t.image = s.image := by
  induction mutators generalizing s with
  | nil => exact ⟨rfl, rfl, rfl, rfl⟩
  | cons f rest ih =>
    obtain ⟨hc, hp, hy, hi⟩ := ih (s.mutate (f s s.cycle))
    obtain ⟨gc, gp, gy, gi, -, -⟩ := mutate_fields s (f s s.cycle)
    exact ⟨hc.trans gc, hp.trans gp, hy.trans gy, hi.trans gi⟩

end Sys2Proof.Machine
end

