-- ==== Sys2Proof/Laws/PerInstr.lean ====
section
/-! SUPPORT. Statements made per instruction, one lemma per constructor of `Instr`. Family `EncodingRow`: the word of a
well-formed instruction matches its own row of the opcode table. -/

namespace Sys2Proof.Laws.EncodingRow

/-- The mask and match pair of the instruction's row holds of its word (R54). -/
def Statement (i : Instr) : Prop :=
  i.wf = true →
    match i with
    | .addi _ _ _ => matchesAddi (encode i) = true
    | .lw _ _ _ => matchesLw (encode i) = true
    | .add _ _ _ => matchesAdd (encode i) = true
    | .undef _ => matchesUndef (encode i) = true

theorem addi (rs rt : RegIndex) (imm : BitVec 16) : Statement (.addi rs rt imm) := by
  intro _
  have hs := rs.isLt
  have ht := rt.isLt
  have hi := imm.isLt
  rw [matchesAddi_iff]
  apply BitVec.eq_of_toNat_eq
  rw [opField_toNat, encode_addi_toNat]
  simp only [BitVec.toNat_ofNat]
  omega

theorem lw (rs rt : RegIndex) (imm : BitVec 16) : Statement (.lw rs rt imm) := by
  intro _
  have hs := rs.isLt
  have ht := rt.isLt
  have hi := imm.isLt
  rw [matchesLw_iff]
  apply BitVec.eq_of_toNat_eq
  rw [opField_toNat, encode_lw_toNat]
  simp only [BitVec.toNat_ofNat]
  omega

theorem add (rs rt rd : RegIndex) : Statement (.add rs rt rd) := by
  intro _
  have hs := rs.isLt
  have ht := rt.isLt
  have hd := rd.isLt
  rw [matchesAdd_iff]
  constructor <;> apply BitVec.eq_of_toNat_eq
  · rw [opField_toNat, encode_add_toNat]
    simp only [BitVec.toNat_ofNat]
    omega
  · rw [functField_toNat, encode_add_toNat]
    simp only [BitVec.toNat_ofNat]
    omega

theorem undef (w : Word) : Statement (.undef w) := fun h => h

end Sys2Proof.Laws.EncodingRow
end

