-- ==== Sys2Proof/Laws/Step.lean ====
section
/-! SUPPORT. What a meaning and a step can do, said once: `exec_cases` and `step_cases` are the inversion lemmas every
invariant is derived from. -/

namespace Sys2Proof.Machine

/-- Everything phase 3 can do: write one register, do nothing, or raise the strict-mode fault of an UNDEF word. -/
theorem exec_cases (i : Instr) (s : State) :
    (∃ r v, exec i s = .next (s.writeGpr r v)) ∨
      (∃ w, i = .undef w ∧ s.cfg.strictMode = false ∧ exec i s = .next s) ∨
      (∃ w, i = .undef w ∧ s.cfg.strictMode = true ∧ exec i s = .fault (.unsupportedInstruction s.pc w)) := by
  cases i with
  | addi rs rt imm => exact .inl ⟨_, _, rfl⟩
  | lw rs rt imm => exact .inl ⟨_, _, rfl⟩
  | add rs rt rd => exact .inl ⟨_, _, rfl⟩
  | undef w =>
    right
    cases h : s.cfg.strictMode
    · exact .inl ⟨w, rfl, rfl, by simp [exec, execUndef, h]⟩
    · exact .inr ⟨w, rfl, rfl, by simp [exec, execUndef, raiseUnsupported, h]⟩

/-- Everything a step can do: a next state whose `pc` and `cycle` advance and in which at most one register was written,
or, in strict mode only, the fault. -/
theorem step_cases (s : State) :
    (∃ r v, step s = .next (s.writeGpr r v).advancePc.countCycle) ∨
      (s.cfg.strictMode = false ∧ step s = .next s.advancePc.countCycle) ∨
      (∃ w, decodeWord s.fetchWord = .undef w ∧ s.cfg.strictMode = true ∧
        step s = .fault (.unsupportedInstruction s.pc w)) := by
  rcases exec_cases (decodeWord s.fetchWord) s with ⟨r, v, h⟩ | ⟨w, _, hs, h⟩ | ⟨w, hd, hs, h⟩
  · exact .inl ⟨r, v, by simp [step, h]⟩
  · exact .inr (.inl ⟨hs, by simp [step, h]⟩)
  · exact .inr (.inr ⟨w, hd, hs, by simp [step, h]⟩)

/-- The fields a completed step leaves or advances (R66, R67, R76). -/
theorem step_next_fields {s t : State} (h : step s = .next t) :
    t.cfg = s.cfg ∧ t.pc = s.pc + 4#32 ∧ t.cycle = s.cycle + 1 ∧ t.mem = s.mem ∧ t.image = s.image := by
  rcases step_cases s with ⟨r, v, e⟩ | ⟨_, e⟩ | ⟨w, _, _, e⟩
  · rw [e] at h; cases h; simp
  · rw [e] at h; cases h; simp
  · rw [e] at h; cases h

/-- The host's run of the core is `runSteps`. -/
theorem core_run_eq_runSteps (n : Nat) (s : State) : Host.Core.run Sys2Proof.core n s = runSteps n s := by
  induction n generalizing s with
  | zero => rfl
  | succ n ih =>
    have hstep : Sys2Proof.core.step s = step s := rfl
    simp only [Host.Core.run, runSteps, hstep]
    cases step s with
    | next t => exact ih t
    | fault r => rfl
    | refused r => rfl

end Sys2Proof.Machine
end

