-- ==== Sys2Proof/Laws/Safety.lean ====
section
/-! SUPPORT. The claims' own terms in terms of the model's operations. -/

namespace Sys2Proof.Machine

theorem backed_iff (c : Config) (v : Word) : backed c v.toNat ↔ inRange c v = true := (inRange_iff c v).symm

theorem not_backed_iff (c : Config) (v : Word) : ¬ backed c v.toNat ↔ inRange c v = false := by
  rw [backed_iff, Bool.not_eq_true]

/-- An in-range read as a number (R31). -/
theorem memRead_toNat {s : State} {v : Word} (h : inRange s.cfg v = true) :
    (s.memRead v).toNat = bigEndianAt s.mem (physIndex s.cfg v) := by
  rw [memRead_inRange h, wordOfBytes_toNat]
  rfl

/-- A register write in the claims' terms. -/
theorem onlyRegWritten_writeGpr (s : State) (i : RegIndex) (v : Word) : onlyRegWritten s (s.writeGpr i v) i v := by
  intro j
  rw [readGpr_writeGpr]
  have h := isHardwired_iff s.cfg i
  by_cases hw : isHardwired s.cfg i = true
  · obtain ⟨hz, rfl⟩ := h.mp hw
    simp [hw, hz]
  · rw [h] at hw
    simp [Bool.eq_false_iff, h, hw]

theorem sameButRegs_writeGpr (s : State) (i : RegIndex) (v : Word) : sameButRegs s (s.writeGpr i v) := by
  simp [sameButRegs]

/-- Adding a sign-extended immediate is adding its signed value modulo 2^32 (R9). -/
theorem add32_sext32 (a : Word) (imm : BitVec 16) :
    add32 a (sext32 imm) = BitVec.ofInt 32 (a.toNat + imm.toInt) := by
  have h : sext32 imm = BitVec.ofInt 32 imm.toInt := rfl
  rw [h, add32, BitVec.ofInt_add]
  simp

/-- The words of the catch-all row are those the decoder gives to UNDEF (R54, R77). -/
theorem matchesUndef_iff (w : Word) : matchesUndef w = true ↔ decodeWord w = .undef w := by
  have ha := matchesAddi_iff w
  have hl := matchesLw_iff w
  have hd := matchesAdd_iff w
  simp only [matchesUndef, decodeWord, Bool.and_eq_true, Bool.not_eq_true', ← Bool.not_eq_true, ha, hl, hd]
  split
  · simp_all
  · split
    · simp_all
    · split <;> simp_all

/-- An UNDEF instruction carries the word it was decoded from. -/
theorem undef_of_decodeWord {w w' : Word} (h : decodeWord w = .undef w') : w' = w ∧ matchesUndef w = true := by
  have hw : w' = w := by
    unfold decodeWord at h
    split at h
    · cases h
    · split at h
      · cases h
      · split at h
        · cases h
        · cases h; rfl
  subst hw
  exact ⟨rfl, (matchesUndef_iff _).mpr h⟩

/-- UNDEF in permissive mode (R77). -/
theorem exec_undef_permissive {s : State} (h : s.cfg.strictMode = false) (w : Word) : exec (.undef w) s = .next s := by
  simp [exec, execUndef, h]

/-- UNDEF in strict mode (R88). -/
theorem exec_undef_strict {s : State} (h : s.cfg.strictMode = true) (w : Word) :
    exec (.undef w) s = .fault (.unsupportedInstruction s.pc w) := by
  simp [exec, execUndef, raiseUnsupported, h]

/-- A register write keeps the invariant. -/
theorem inv_writeGpr {s : State} (h : s.Inv) (i : RegIndex) (v : Word) : (s.writeGpr i v).Inv := by
  obtain ⟨hc, hm, hn, hz⟩ := h
  refine ⟨by simpa using hc, by simpa using hm, by simpa using hn, fun hw => ?_⟩
  rw [State.writeGpr_cfg] at hw
  rw [writeGpr_reg_zero i v hw]
  exact hz hw

end Sys2Proof.Machine
end

