-- ==== Sys2Proof/Tests/Slice0.lean ====
section
/-! SUPPORT. Tests. Expected values are from 95_test_vectors.md and the rules' worked examples, not from the model; the
witnesses show that the hypotheses of the statements can be met, at the boundaries of their ranges. -/

namespace Sys2Proof.Machine.Tests

/-! ### Helpers -/

/-- A reference instance at its entry address with `x[1] = a`, `x[2] = b` and the given memory. -/
def start (a b : Word) (mem : Memory) : State :=
  (((State.fresh Config.reference).setPc 0x80000000#32).setMem mem |>.writeGpr 1 a).writeGpr 2 b

/-- The same instance with the two flags chosen. -/
def flagged (hardwired strict : Bool) (s : State) : State :=
  { s with cfg := { s.cfg with zeroRegHardwired := hardwired, strictMode := strict } }

/-- A property of the next state; false if there is none. -/
def next? (o : Host.Outcome State Fault Refusal) (f : State → Bool) : Bool :=
  match o with
  | .next t => f t
  | _ => false

/-- The fault of an outcome, if it is one. -/
def fault? : Host.Outcome State Fault Refusal → Option Fault
  | .fault f => some f
  | _ => none

/-- The bytes of a word at an offset, as memory. -/
def cells (a : Nat) (w : Word) : Memory := writeBytes [] a (wordBytes w)

/-- `MEM[0..7] = 00 11 22 33 44 55 66 77` (95_test_vectors.md 2.1). -/
def ramp : State := start 0 0 [(1, 0x11), (2, 0x22), (3, 0x33), (4, 0x44), (5, 0x55), (6, 0x66), (7, 0x77)]

/-! ### Well-formedness: an ill-formed term for each check (R54) -/

theorem test_wf_refuses_addi_word : (Instr.undef 0x20010005#32).wf = false := by decide
theorem test_wf_refuses_lw_word : (Instr.undef 0x8C220050#32).wf = false := by decide
theorem test_wf_refuses_add_word : (Instr.undef 0x002218E0#32).wf = false := by decide
theorem test_wf_accepts_other_word : (Instr.undef 0x00220821#32).wf = true := by decide
theorem test_config_refuses_small_ram : { Config.reference with memSize := 4095 }.wf = false := by decide
theorem test_config_refuses_ram_past_top : { Config.reference with ksegBase := 0xFFFFE001#32 }.wf = false := by decide
theorem test_config_refuses_equal_vectors : { Config.reference with resetVector := 0x80000000#32 }.wf = false := by decide

/-! ### Decoding: words written out bit by bit from R50, R51 and R60 -/

theorem test_decode_addi : decodeWord 0b001000_00001_00010_1111111111111101#32 = .addi 1 2 0xFFFD#16 := by decide
theorem test_decode_lw : decodeWord 0b100011_00001_00010_0000000001010000#32 = .lw 1 2 0x0050#16 := by decide
theorem test_decode_add : decodeWord 0b000000_00001_00010_00011_00000_100000#32 = .add 1 2 3 := by decide
theorem test_decode_add_shamt : decodeWord 0b000000_00001_00010_00011_00011_100000#32 = .add 1 2 3 := by decide
theorem test_decode_addu : decodeWord 0b000000_00001_00010_00001_00000_100001#32 = .undef 0x00220821#32 := by decide
theorem test_decode_addiu : decodeWord 0b001001_00000_00001_0000000000000101#32 = .undef 0x24010005#32 := by decide
theorem test_decode_last_registers : decodeWord 0x23FFFFFF#32 = .addi 31 31 0xFFFF#16 := by decide
theorem test_decode_short : decode [0x20#8, 0x01#8, 0x00#8] = .error (.tooShort 3) := by rfl
theorem test_decode_big_endian : decode [0x20#8, 0x01#8, 0x00#8, 0x05#8, 0x77#8] = .ok (.addi 0 1 5, [0x77#8]) := by rfl
theorem test_encode_addi : encode (.addi 1 2 0xFFFD#16) = 0x2022FFFD#32 := by decide
theorem test_encode_lw : encode (.lw 1 6 0x1FFC#16) = 0x8C261FFC#32 := by decide
theorem test_encode_add : encode (.add 2 2 3) = 0x00421820#32 := by decide
theorem test_table_words :
    decodeTableWord 32 0x20000000 = some (.addi 0 0 0) ∧ decodeTableWord 32 0x8C000000 = some (.lw 0 0 0) ∧
      decodeTableWord 32 0x00000020 = some (.add 0 0 0) ∧ decodeTableWord 32 0 = some (.undef 0) := by decide

/-! ### Memory port (95_test_vectors.md 2.1) -/

theorem test_read_aligned : ramp.memRead 0x80000000#32 = 0x00112233#32 := by decide
theorem test_read_misaligned : ramp.memRead 0x80000003#32 = 0x33445566#32 := by decide
theorem test_read_below_base : ramp.memRead 0x7FFFFFFF#32 = 0#32 := by decide
theorem test_write_misaligned :
    readBytes ((ramp.memWrite 0x80000010#32 0x11223344#32).memWrite 0x80000011#32 0xA1B2C3D4#32).mem 0x10 8 =
      [0x11, 0xA1, 0xB2, 0xC3, 0xD4, 0x00, 0x00, 0x00] := by decide
theorem test_last_word :
    let s := ramp.memWrite 0x80001FFC#32 0xAABBCCDD#32
    s.memRead 0x80001FFC#32 = 0xAABBCCDD#32 ∧ s.memRead 0x80001FFD#32 = 0#32 := by decide
theorem test_write_straddling_dropped :
    (ramp.memWrite 0x80001FFD#32 0x01020304#32).mem = ramp.mem ∧
      (ramp.memWrite 0x7FFFFFFE#32 0x01020304#32).mem = ramp.mem := by decide
theorem test_write_zero_removes_entry : (ramp.memWrite 0x80000004#32 0#32).mem = [(1, 0x11), (2, 0x22), (3, 0x33)] := by
  decide

/-! ### Instructions (95_test_vectors.md 2.2 to 2.6) -/

theorem test_addi_negative_immediate_and_overflow :
    next? (exec (.addi 1 3 0x8000#16) (start 0x00008000#32 0 [])) (fun t => t.readGpr 3 == 0#32) = true ∧
      next? (exec (.addi 1 1 1#16) (start 0x7FFFFFFF#32 0 [])) (fun t => t.readGpr 1 == 0x80000000#32) = true := by
  decide
theorem test_addi_register_zero :
    next? (exec (.addi 0 0 7#16) (start 0 0 [])) (fun t => t.readGpr 0 == 7#32) = true ∧
      next? (exec (.addi 0 0 7#16) (flagged true false (start 0 0 []))) (fun t => t.readGpr 0 == 0#32) = true := by
  decide
theorem test_add_wraps :
    next? (exec (.add 1 2 3) (start 0x12345678#32 0x87654321#32 [])) (fun t => t.readGpr 3 == 0x99999999#32) = true := by
  decide
theorem test_add_doubles_in_place :
    next? (exec (.add 1 1 1) (start 0xC0000000#32 0 [])) (fun t => t.readGpr 1 == 0x80000000#32) = true := by decide
theorem test_lw_base_is_destination :
    next? (exec (.lw 1 1 0x48#16) (start 0x80000000#32 0 (cells 0x48 0x12345678#32)))
      (fun t => t.readGpr 1 == 0x12345678#32) = true := by decide
theorem test_lw_straddling_and_wrapping_load_zero :
    next? (exec (.lw 1 2 0x1FFD#16) (start 0x80000000#32 0x77777777#32 (cells 0x1FFC 0xAABBCCDD#32)))
      (fun t => t.readGpr 2 == 0#32) = true ∧
    next? (exec (.lw 1 2 8#16) (start 0xFFFFFFFC#32 5 [])) (fun t => t.readGpr 2 == 0#32) = true := by decide
theorem test_undef_only_advances :
    next? (step (start 0 0 (cells 0 0x10000003#32)))
      (fun t => t == ((start 0 0 (cells 0 0x10000003#32)).setPc 0x80000004#32).setCycle 1) = true := by decide
theorem test_undef_strict_faults :
    fault? (step (flagged false true (start 0 0 []))) = some (.unsupportedInstruction 0x80000000#32 0#32) := by decide

/-! ### The step and the word placed for it -/

theorem test_source_scenario :
    next? (step ((State.fresh Config.reference).loadImage [0x20#8, 0x01#8, 0x00#8, 0x05#8]))
      (fun t => t.readGpr 1 == 5#32 && t.pc == 0x80000004#32 && t.cycle == 1) = true := by decide
theorem test_pc_wraps :
    next? (step ((start 0 0 []).setPc 0xFFFFFFFE#32)) (fun t => t.pc == 0x00000002#32) = true := by decide
theorem test_misaligned_fetch :
    next? (step ((start 0 0 (cells 1 0x20010005#32)).setPc 0x80000001#32))
      (fun t => t.readGpr 1 == 5#32 && t.pc == 0x80000005#32) = true := by decide
theorem test_placed_word_runs_first :
    next? (step (State.reset.withFetchWord 32 0x20010005)) (fun t => t.readGpr 1 == 5#32 && t.cycle == 1) = true := by
  decide
theorem test_placed_word_stays_at_pc : (ramp.withFetchWord 32 0x00221820).fetchWord = 0x00221820#32 := by decide
theorem test_reset_runs_zero_words :
    next? (runSteps 2 State.reset) (fun t => t == (State.reset.setPc 0xBFC00008#32).setCycle 2) = true := by decide

/-! ### Host operations (95_test_vectors.md 2.7) on a small instance -/

/-- Sixteen bytes of RAM, so that a snapshot is a short list; the operations do not need the constraints of R5. -/
def small : State := { start 5 2 (cells 4 0x20010005#32) with
  cfg := { Config.reference with memSize := 16 }, image := some [0x01#8, 0x02#8], cycle := 7 }

theorem test_load_keeps_registers :
    let t := small.loadImage [0xAA#8, 0x00#8, 0xBB#8]
    readBytes t.mem 0 8 = [0xAA, 0x00, 0xBB, 0x00, 0x20, 0x01, 0x00, 0x05] ∧ t.readGpr 1 = 5#32 ∧ t.cycle = 7 ∧
      t.pc = 0x80000000#32 := by decide
theorem test_reset_replays_image :
    let t := small.resetOp
    t.mem = [(0, 0x01), (1, 0x02)] ∧ t.readGpr 1 = 0#32 ∧ t.cycle = 0 ∧ t.pc = 0x80000000#32 := by decide
theorem test_restore_snapshot :
    perform (.restore small.snapshot) (((small.memWrite 0x80000008#32 0xCAFEF00D#32).setPc 4#32).setCycle 9) =
      (small, .done) := by decide
/-- A second mutator reads what the first left (log entry 23: the model's choice), and none runs after a fault. -/
theorem test_mutators_run_in_order :
    let copy : State → Nat → Mutation := fun u _ => ⟨[(4, u.readGpr 3)], []⟩
    let set : State → Nat → Mutation := fun _ n => ⟨[(3, BitVec.ofNat 32 n)], []⟩
    (performStepWith [set, copy] small).1.readGpr 4 = 8#32 ∧
      (performStepWith [set] (flagged false true (small.setPc 0#32))).1.readGpr 3 = 0#32 := by decide
theorem test_restore_mismatch :
    perform (.restore { small.snapshot with bytes := [] }) small = (small, .snapshotMismatch) := by decide
theorem test_restore_foreign_word_zero :
    ((flagged true false small).replaceBy { small.snapshot with words := List.replicate 33 9#32 }).readGpr 0 = 0#32 := by
  decide
theorem test_strict_fault_keeps_state :
    perform .step (flagged false true (small.setPc 0#32)) =
      (flagged false true (small.setPc 0#32), .stepFault (.unsupportedInstruction 0#32 0#32)) := by decide
theorem test_power_on_reference :
    next? (powerOn Config.reference) (fun t => t == State.reset) = true := by decide
theorem test_mutation_spares_pc :
    let t := small.mutate ⟨[(3, 8#32)], [(0, 0x7F#8), (16, 0x7F#8)]⟩
    t.readGpr 3 = 8#32 ∧ t.pc = small.pc ∧ t.mem = (0, 0x7F#8) :: small.mem := by decide

/-! ### Assembler (R60, R61) -/

theorem test_assemble_addi : (AsmLine.addi 2 1 (-3)).assemble = some 0x2022FFFD#32 := by decide
theorem test_assemble_li_range : (AsmLine.li 1 32768).assemble = none := by decide
theorem test_show_lw : showInstr (.lw 1 7 0xFFFC#16) = "lw $7, -4($1)" := by decide
theorem test_aliases : regAliases.length = 32 ∧ regAliases[29]? = some "$sp" := by decide

/-! ### Witnesses: the hypotheses of each statement are met -/

/-- LW $2, 4($1) and then the word `w` at the entry address, `x[1]` at the base. -/
def loadThen (w : Word) : State :=
  start 0x80000000#32 0 (writeBytes (writeBytes [] 0 (wordBytes 0x8C220004#32)) 4 (wordBytes w))

/-- The word after the LW is ADD $3, $2, $2. -/
def loadThenAdd : State := loadThen 0x00421820#32

/-- A word at the entry address of a permissive or strict reference instance. -/
def running (strict : Bool) (w : Word) : State := flagged false strict (start 0 0 (cells 0 w))

theorem witness_StepRunsDecodedInstruction :
    decodeWord (loadThenAdd.memRead loadThenAdd.pc) = .lw 1 2 4 ∧ (∃ t, exec (.lw 1 2 4) loadThenAdd = .next t) ∧
      decodeWord ((running true 0#32).memRead (running true 0#32).pc) = .undef 0 ∧
      ∃ f, exec (.undef 0) (running true 0#32) = .fault f := ⟨by decide, ⟨_, rfl⟩, by decide, ⟨_, rfl⟩⟩

/-- The first and the last in-range `pc`, and the two next to them that are not. -/
theorem witness_FetchIsBigEndianWordAtPc :
    backed Config.reference 0x80000000 ∧ backed Config.reference 0x80001FFC ∧
      ¬ backed Config.reference 0x7FFFFFFF ∧ ¬ backed Config.reference 0x80001FFD ∧
      Config.reference.strictMode = false := by decide

theorem witness_CompletedStepAdvancesPcAndCycle :
    (∃ t, step State.reset = .next t) ∧ State.reset.cfg.strictMode = false ∧
      (flagged false true loadThenAdd).cfg.strictMode = true ∧
      matchesUndef (flagged false true loadThenAdd).fetchWord = false := ⟨⟨_, rfl⟩, by decide⟩

theorem witness_ExecuteWritesAtMostOneRegister :
    (∃ t, exec (.add 1 2 3) loadThenAdd = .next t) ∧ ∀ rs rt imm, Instr.add 1 2 3 ≠ .lw rs rt imm :=
  ⟨⟨_, rfl⟩, fun _ _ _ h => by cases h⟩

theorem witness_StepIsTotalAndIgnoresImage :
    (running false 0#32).cfg.strictMode = false ∧ (running true 0#32).cfg.strictMode = true ∧
      (∃ f, step (running true 0#32) = .fault f) ∧ ∃ t, step (flagged false true loadThenAdd) = .next t :=
  ⟨by decide, by decide, ⟨_, rfl⟩, ⟨_, rfl⟩⟩

theorem witness_RunOfStepsIsStraightLine : State.reset.cfg.strictMode = false := by decide

theorem witness_PcKeepsResidueModFour : ∃ t, runSteps 2 (ramp.setPc 0x80000001#32) = .next t := ⟨_, rfl⟩

theorem witness_LoadedValueIsReadByNextInstruction :
    decodeWord loadThenAdd.fetchWord = .lw 1 2 4 ∧ loadThenAdd.cfg.zeroRegHardwired = false ∧
      next? (step loadThenAdd) (fun t => decodeWord t.fetchWord == .add 2 2 3) = true := by decide

/-- ADDI $3, $2, 1 and LW $3, 0($2) after the load, and ADDI $0, $2, 1 with register 0 hard-wired. -/
theorem witness_LoadedValueIsReadByNextInstruction_other_forms :
    decodeWord (loadThen 0x20430001#32).fetchWord = .lw 1 2 4 ∧
      next? (step (loadThen 0x20430001#32)) (fun t => decodeWord t.fetchWord == .addi 2 3 1) = true ∧
      decodeWord (loadThen 0x8C430000#32).fetchWord = .lw 1 2 4 ∧
      next? (step (loadThen 0x8C430000#32)) (fun t => decodeWord t.fetchWord == .lw 2 3 0) = true ∧
      next? (step (flagged true false (loadThen 0x20400001#32)))
        (fun t => decodeWord t.fetchWord == .addi 2 0 1 && t.cfg.zeroRegHardwired) = true := by decide

theorem witness_AddiAddsSignExtendedImmediate : 0x20010005#32 &&& 0xFC000000#32 = 0x20000000#32 := by decide
theorem witness_LwLoadsBigEndianWordOrZero : 0x8C220050#32 &&& 0xFC000000#32 = 0x8C000000#32 := by decide
theorem witness_AddSumsTwoRegisters : 0x002218E0#32 &&& 0xFC00003F#32 = 0x00000020#32 := by decide

theorem witness_UnsupportedWordsDoNothingOrFault :
    (running false 0x10000003#32).cfg.strictMode = false ∧ matchesUndef (running false 0x10000003#32).fetchWord = true ∧
      (running true 0x10000003#32).cfg.strictMode = true ∧
      fault? (step (running true 0x10000003#32)) = some (.unsupportedInstruction 0x80000000#32 0x10000003#32) := by
  decide

/-- BEQ, JR and SW words (95_test_vectors.md 2.5). -/
theorem witness_ControlTransferAndStoreWordsOnlyAdvance :
    (running false 0x10000003#32).fetchWord.toNat / 2 ^ 26 = 0x04 ∧
      (running false 0x03E00008#32).fetchWord.toNat / 2 ^ 26 = 0 ∧
      (running false 0x03E00008#32).fetchWord.toNat % 2 ^ 6 = 0x08 ∧
      (running false 0xAC240048#32).fetchWord.toNat / 2 ^ 26 = 0x2B := by decide

/-- SYSCALL and ERET words (95_test_vectors.md 2.5). -/
theorem witness_SystemWordsOnlyAdvance :
    (running false 0x0000000C#32).fetchWord.toNat / 2 ^ 26 = 0 ∧
      (running false 0x0000000C#32).fetchWord.toNat % 2 ^ 6 = 0x0C ∧
      (running false 0x42000018#32).fetchWord.toNat / 2 ^ 26 = 0x10 := by decide

theorem witness_PermissiveNeverFaults : loadThenAdd.cfg.strictMode = false := by decide

theorem witness_StrictFaultLeavesStateAndRepeats :
    (running true 0#32).cfg.strictMode = true ∧ matchesUndef (running true 0#32).fetchWord = true := by decide

theorem witness_StrictModeKeepsDefinedInstructions :
    matchesUndef loadThenAdd.fetchWord = false ∧ ∀ w, Instr.lw 1 2 4 ≠ .undef w := ⟨by decide, fun _ h => by cases h⟩

/-- `phys` 0 and `MEM_SIZE - 4` in range, -1 and `MEM_SIZE - 3` not. -/
theorem witness_MemReadIsBigEndianWordOrZero :
    (phys Config.reference 0x80000000#32 = 0 ∧ phys Config.reference 0x80001FFC#32 = (0x2000 : Int) - 4) ∧
      phys Config.reference 0x7FFFFFFF#32 = -1 ∧ phys Config.reference 0x80001FFD#32 = (0x2000 : Int) - 3 := by decide

theorem witness_MemWriteStoresFourBytesOrNothing : Memory.wf ramp.mem = true ∧ Memory.wf loadThenAdd.mem = true := by
  decide

theorem witness_ReadAfterWriteReturnsValue :
    Memory.wf ramp.mem = true ∧ backed ramp.cfg (0x80001FFC#32 : Word).toNat := by decide

theorem witness_OutOfRangeReadsZeroAndDropsWrites :
    (0x7FFFFFFF#32 : Word).toNat < ramp.cfg.ksegBase.toNat ∧
      ramp.cfg.ksegBase.toNat + ramp.cfg.memSize - 3 ≤ (0x80001FFD#32 : Word).toNat := by decide

theorem witness_TranslationIsInjectiveAndMayWrap :
    inRange Config.reference 0x80001FFC#32 = true ∧ inRange Config.reference 0x7FFFFFFC#32 = false ∧
      Config.reference.wf = true := by decide

theorem witness_WriteIsSeenByNextFetch :
    Memory.wf loadThenAdd.mem = true ∧ backed loadThenAdd.cfg loadThenAdd.pc.toNat := by decide

theorem witness_RegisterZeroFollowsItsParameter :
    (flagged true false ramp).cfg.zeroRegHardwired = true ∧ ramp.cfg.zeroRegHardwired = false ∧
      (31 : RegIndex) ≠ 0 ∧ (0 : RegIndex) ≠ 31 := by decide

/-- One word for each clause of the two maps and of the layout. -/
theorem witness_DecoderFollowsOpcodeMaps :
    (0x23FFFFFF : Nat) / 2 ^ 26 = 0x08 ∧ (0x8FFFFFFF : Nat) / 2 ^ 26 = 0x23 ∧
      ((0x03FFFFE0 : Nat) / 2 ^ 26 = 0x00 ∧ (0x03FFFFE0 : Nat) % 2 ^ 6 = 0x20) ∧
      ((0x00220821 : Nat) / 2 ^ 26 = 0x00 ∧ (0x00220821 : Nat) % 2 ^ 6 ≠ 0x20) ∧
      (0x24010005 : Nat) / 2 ^ 26 = 0x09 := by decide

theorem witness_DecoderReadsFieldsOfTheLayout :
    matchesAddi 0x23FFFFFF#32 = true ∧ matchesLw 0x8FFFFFFF#32 = true ∧ matchesAdd 0x03FFFFE0#32 = true ∧
      matchesUndef 0x24010005#32 = true := by decide

theorem witness_DecodeOfEncodeIsIdentity :
    (Instr.addi 31 31 0xFFFF#16).wf = true ∧ (Instr.lw 31 31 0xFFFF#16).wf = true ∧ (Instr.add 31 31 31).wf = true ∧
      (Instr.undef 0xFFFFFFFF#32).wf = true := by decide

theorem witness_EncodeOfDecodeClearsOnlyShamt :
    matchesAdd 0xFFFFFFFF#32 = false ∧ matchesAdd 0x002218E0#32 = true ∧
      0x00221820#32 &&& 0xFFFFF83F#32 = 0x002218E0#32 &&& 0xFFFFF83F#32 := by decide

theorem witness_PowerOnGivesFreshState :
    Config.reference.wf = true ∧ { Config.reference with memSize := 4096 }.wf = true ∧
      { Config.reference with memSize := 4095 }.wf = false := by decide

theorem witness_ResetReplaysBootTransfer : ramp.image = none ∧ small.image = some [0x01#8, 0x02#8] := by decide

theorem witness_LoadImageCopiesPrefixAndKeepsRest : Memory.wf ramp.mem = true := by decide

theorem witness_BootRunsFirstImageWord : ramp.Inv ∧ (flagged true true ramp).Inv := by decide

/-- The invariant, another instance with the same parameters, and the first and the last captured byte. -/
theorem witness_RestoreOfSnapshotIsExact :
    ramp.Inv ∧ State.reset.cfg = ramp.cfg ∧ 0 < ramp.cfg.memSize ∧ 0x1FFF < ramp.cfg.memSize := by decide

theorem witness_RestoreReplacesCapturedState :
    small.snapshot.words.length = 33 ∧ small.snapshot.bytes.length = small.cfg.memSize := by decide

theorem witness_SnapshotMismatchChangesNothing :
    ({ small.snapshot with bytes := [] } : Snapshot).bytes.length ≠ small.cfg.memSize ∧
      small.snapshot.words.length = 33 ∧ small.snapshot.bytes.length = small.cfg.memSize ∧ Config.reference.wf = true ∧
      (perform (.restore { small.snapshot with words := [] }) small).2 = .snapshotMismatch ∧
      (perform .step (running true 0#32)).2 = .stepFault (.unsupportedInstruction 0x80000000#32 0#32) := by decide

theorem witness_OnlyHostWritesChangeMemory :
    ¬ backed ramp.cfg (0x80002000#32 : Word).toNat ∧ (perform (.loadImage [1#8]) ramp).1.mem ≠ ramp.mem := by decide

theorem witness_ParametersNeverChange :
    small.cfg.memSize ≠ ramp.cfg.memSize ∧ ∃ t, exec (.addi 1 2 3) ramp = .next t := ⟨by decide, ⟨_, rfl⟩⟩

theorem witness_EveryStepKeepsInvariant :
    (flagged true false loadThenAdd).Inv ∧ ∃ t, step (flagged true false loadThenAdd) = .next t :=
  ⟨by decide, ⟨_, rfl⟩⟩

theorem witness_EveryHostOperationKeepsInvariant : (flagged true true loadThenAdd).Inv := by decide

theorem witness_FreshStatesMeetInvariant : ∃ s, powerOn Config.reference = .next s := ⟨_, rfl⟩

theorem witness_AssembledWordsHaveTheirBits :
    (-32768 : Int) ≤ -32768 ∧ (32767 : Int) ≤ 32767 ∧ ¬((-32768 : Int) ≤ 32768 ∧ (32768 : Int) ≤ 32767) := by decide

theorem witness_PseudoInstructionsUnderZero :
    ramp.readGpr 0 = 0#32 ∧ (-32768 : Int) ≤ -32768 ∧ (-32768 : Int) ≤ 32767 ∧ ramp.cfg.strictMode = false ∧
      (running true 0#32).readGpr 0 = 0#32 ∧ (running true 0#32).cfg.strictMode = true := by decide

end Sys2Proof.Machine.Tests
end

/-! ### The parameters of an instance are constants (R27) -/

namespace Sys2Proof.Machine

/-- Phase 3 keeps the parameters: all it can do to the state is one register write. -/
theorem exec_next_cfg {i : Instr} {s t : State} (h : exec i s = .next t) : t.cfg = s.cfg := by
  rcases exec_cases i s with ⟨r, v, e⟩ | ⟨_, _, _, e⟩ | ⟨_, _, _, e⟩
  · rw [e] at h; cases h; exact s.writeGpr_cfg r v
  · rw [e] at h; cases h; rfl
  · rw [e] at h; cases h

/-- `RESET` keeps the parameters, with or without an image (R102). -/
@[simp] theorem resetOp_cfg (s : State) : s.resetOp.cfg = s.cfg := by
  cases h : s.image with
  | none => rw [resetOp_none h, State.fresh_cfg]
  | some img => rw [resetOp_some h, bootTransfer_cfg, State.setImage_cfg, State.fresh_cfg]

/-- `STEP` keeps the parameters, whether it completes or faults. -/
theorem perform_step_cfg (s : State) : (perform .step s).1.cfg = s.cfg := by
  cases h : step s with
  | next t => simpa only [perform, h] using (step_next_fields h).1
  | fault f => simp only [perform, h]
  | refused r => simp only [perform, h]

/-- `RESTORE` keeps the parameters, whether the snapshot fits or not (R109). -/
theorem perform_restore_cfg (s : State) (p : Snapshot) : (perform (.restore p) s).1.cfg = s.cfg := by
  cases h : p.fits s.cfg with
  | true => rw [perform_restore_fits h, replaceBy_cfg]
  | false => rw [perform_restore_mismatch h]

/-- No host operation changes a parameter. -/
@[simp] theorem perform_cfg (op : HostOp) (s : State) : (perform op s).1.cfg = s.cfg := by
  cases op with
  | step => exact perform_step_cfg s
  | reset => exact resetOp_cfg s
  | loadImage img => exact bootTransfer_cfg (s.setImage (some img)) img
  | restore p => exact perform_restore_cfg s p
  | writeMem32 vaddr value => exact s.memWrite_cfg vaddr value
  | mutate d => exact (mutate_fields s d).1
  | snapshot | readPc | readCycle | readGpr | readMem32 => rfl

/-- A snapshot holds as many bytes as its own instance's `MEM_SIZE`, so it fits no instance of another size. -/
theorem snapshot_fits_eq_false {u : State} {c : Config} (h : u.cfg.memSize ≠ c.memSize) :
    u.snapshot.fits c = false := by
  rw [← Bool.not_eq_true, fits_iff, snapshot_bytes, Memory.length_readBytes]
  exact fun ⟨_, hsize⟩ => h hsize

/-- Settles O39: phase 3 writes at most one register, every host operation keeps `cfg`, and a snapshot has the length of the
memory it was taken from. -/
theorem parametersNeverChange : Obligations.ParametersNeverChange := by
  unfold Obligations.ParametersNeverChange
  exact ⟨fun _ _ _ h => exec_next_cfg h, perform_cfg,
    fun _ _ h => perform_restore_mismatch (snapshot_fits_eq_false h)⟩

end Sys2Proof.Machine

/-! ### The two port operations in the terms of R31, R32 and R38 -/

namespace Sys2Proof.Machine

/-- The range test on the integers, as R30 writes it. -/
theorem inRange_iff_phys (c : Config) (v : Word) :
    inRange c v = true ↔ 0 ≤ phys c v ∧ phys c v ≤ (c.memSize : Int) - 4 := by
  simp only [inRange, Bool.and_eq_true, decide_eq_true_eq]

theorem inRange_eq_false_iff_phys (c : Config) (v : Word) :
    inRange c v = false ↔ ¬(0 ≤ phys c v ∧ phys c v ≤ (c.memSize : Int) - 4) := by
  rw [← inRange_iff_phys, Bool.not_eq_true]

/-- Byte `k` of the word stands at `phys + k` after an in-range write. -/
theorem readByte_memWrite_add {s : State} {v w : Word} (hm : Memory.wf s.mem = true) (h : inRange s.cfg v = true)
    {k : Nat} (hk : k < 4) : readByte (s.memWrite v w).mem (physIndex s.cfg v + k) = wordByte w k := by
  rw [readByte_memWrite hm h, if_pos (by omega), Nat.add_sub_cancel_left]

/-- An in-range write leaves every byte outside its four alone. -/
theorem readByte_memWrite_of_outside {s : State} {v w : Word} (hm : Memory.wf s.mem = true)
    (h : inRange s.cfg v = true) {a : Nat} (ha : a < physIndex s.cfg v ∨ physIndex s.cfg v + 3 < a) :
    readByte (s.memWrite v w).mem a = readByte s.mem a := by
  rw [readByte_memWrite hm h, if_neg (by omega)]

/-- A read right after an in-range write reassembles the four bytes of the word. -/
theorem memRead_memWrite {s : State} {v w : Word} (hm : Memory.wf s.mem = true) (h : inRange s.cfg v = true) :
    (s.memWrite v w).memRead v = w := by
  have hbyte : ∀ k < 4, readByte (s.memWrite v w).mem (physIndex s.cfg v + k) = wordByte w k :=
    fun _ hk => readByte_memWrite_add hm h hk
  have hr : inRange (s.memWrite v w).cfg v = true := by rwa [State.memWrite_cfg]
  rw [memRead_inRange hr, State.memWrite_cfg, hbyte 1 (by decide), hbyte 2 (by decide), hbyte 3 (by decide),
    ← Nat.add_zero (physIndex s.cfg v), hbyte 0 (by decide), wordOfBytes_wordByte]

/-- Settles O18: the range test is R30's on the integers, and each of its two outcomes has its law of `memRead`. -/
theorem memReadIsBigEndianWordOrZero : Obligations.MemReadIsBigEndianWordOrZero := by
  unfold Obligations.MemReadIsBigEndianWordOrZero
  exact fun s v => ⟨fun h => memRead_toNat ((inRange_iff_phys s.cfg v).mpr h),
    fun h => memRead_outOfRange ((inRange_eq_false_iff_phys s.cfg v).mpr h)⟩

/-- Settles O19: in range the bytes are those of `wordByte` at `phys` to `phys + 3` and the old ones elsewhere; out of
range the write is the identity. -/
theorem memWriteStoresFourBytesOrNothing : Obligations.MemWriteStoresFourBytesOrNothing := by
  unfold Obligations.MemWriteStoresFourBytesOrNothing
  intro s v w hm
  refine ⟨fun hp => ?_, fun hp => memWrite_outOfRange ((inRange_eq_false_iff_phys s.cfg v).mpr hp)⟩
  have h : inRange s.cfg v = true := (inRange_iff_phys s.cfg v).mpr hp
  have hbyte : ∀ k < 4, (readByte (s.memWrite v w).mem (physIndex s.cfg v + k)).toNat =
      w.toNat / 2 ^ (8 * (3 - k)) % 256 := fun k hk => by
    rw [readByte_memWrite_add hm h hk, wordByte_toNat]
  refine ⟨?_, hbyte 1 (by decide), hbyte 2 (by decide), ?_, fun a ha => readByte_memWrite_of_outside hm h ha,
    s.memWrite_cfg v w, s.memWrite_regs v w, s.memWrite_pc v w, s.memWrite_cycle v w, s.memWrite_image v w⟩
  · have hlt : w.toNat / 2 ^ 24 < 256 := by have := w.isLt; omega
    exact (hbyte 0 (by decide)).trans (Nat.mod_eq_of_lt hlt)
  · exact (hbyte 3 (by decide)).trans (by simp)

/-- Settles O20: a backed address is an in-range one, where a read reassembles the word just written. -/
theorem readAfterWriteReturnsValue : Obligations.ReadAfterWriteReturnsValue := by
  unfold Obligations.ReadAfterWriteReturnsValue
  exact fun s v _ hm hb => memRead_memWrite hm ((backed_iff s.cfg v).mp hb)

end Sys2Proof.Machine

/-! ### The opcode maps of R55 and R56 -/

namespace Sys2Proof.Machine

/-- A value of `op` as the number the primary opcode map lists it by (R55). -/
theorem opField_eq_iff (w : Word) (p : BitVec 6) : opField w = p ↔ w.toNat / 2 ^ 26 = p.toNat := by
  rw [← opField_toNat, BitVec.toNat_inj]

/-- A value of `funct` as the number the function map lists it by (R56). -/
theorem functField_eq_iff (w : Word) (p : BitVec 6) : functField w = p ↔ w.toNat % 2 ^ 6 = p.toNat := by
  rw [← functField_toNat, BitVec.toNat_inj]

theorem decodeWord_addi {w : Word} (h : opField w = 0x08#6) :
    decodeWord w = .addi (rsField w) (rtField w) (immField w) := by
  rw [decodeWord, if_pos h]

theorem decodeWord_lw {w : Word} (h : opField w = 0x23#6) :
    decodeWord w = .lw (rsField w) (rtField w) (immField w) := by
  rw [decodeWord, if_neg (by rw [h]; decide), if_pos h]

theorem decodeWord_add {w : Word} (hop : opField w = 0x00#6) (hfunct : functField w = 0x20#6) :
    decodeWord w = .add (rsField w) (rtField w) (rdField w) := by
  rw [decodeWord, if_neg (by rw [hop]; decide), if_neg (by rw [hop]; decide), if_pos ⟨hop, hfunct⟩]

/-- The last line of R54: what no other line takes is UNDEF. -/
theorem decodeWord_undef {w : Word} (haddi : opField w ≠ 0x08#6) (hlw : opField w ≠ 0x23#6)
    (hadd : ¬(opField w = 0x00#6 ∧ functField w = 0x20#6)) : decodeWord w = .undef w := by
  rw [decodeWord, if_neg haddi, if_neg hlw, if_neg hadd]

/-- Settles O25: each clause of the two maps is one line of the decoder, with `op` and `funct` read as numbers. -/
theorem decoderFollowsOpcodeMaps : Obligations.DecoderFollowsOpcodeMaps := by
  unfold Obligations.DecoderFollowsOpcodeMaps
  intro w op funct
  have hop : ∀ p : BitVec 6, opField w = p ↔ op = p.toNat := opField_eq_iff w
  have hfunct : ∀ p : BitVec 6, functField w = p ↔ funct = p.toNat := functField_eq_iff w
  refine ⟨fun h => ⟨_, _, _, decodeWord_addi ((hop _).mpr h)⟩, fun h => ⟨_, _, _, decodeWord_lw ((hop _).mpr h)⟩,
    fun h hf => ⟨_, _, _, decodeWord_add ((hop _).mpr h) ((hfunct _).mpr hf)⟩, fun h hf => ?_, fun h0 h8 h23 => ?_⟩
  · have hzero : opField w = 0x00#6 := (hop _).mpr h
    exact decodeWord_undef (by rw [hzero]; decide) (by rw [hzero]; decide) fun hadd => hf ((hfunct _).mp hadd.2)
  · exact decodeWord_undef (fun e => h8 ((hop _).mp e)) (fun e => h23 ((hop _).mp e)) fun hadd => h0 ((hop _).mp hadd.1)

end Sys2Proof.Machine

/-! ### Words outside the three patterns (R58) -/

namespace Sys2Proof.Machine

/-- A permissive step always completes (R58, R84): the only other outcome `step_cases` leaves is strict. -/
theorem step_permissive_next {s : State} (hs : s.cfg.strictMode = false) : ∃ t, step s = .next t := by
  rcases step_cases s with ⟨r, v, e⟩ | ⟨_, e⟩ | ⟨w, _, hstrict, _⟩
  · exact ⟨_, e⟩
  · exact ⟨_, e⟩
  · rw [hs] at hstrict; cases hstrict

/-- A permissive step at an unsupported word runs phases 4 and 5 only (R77). -/
theorem step_undef_permissive {s : State} (hs : s.cfg.strictMode = false) (hu : matchesUndef s.fetchWord = true) :
    step s = .next s.advancePc.countCycle := by
  rw [step, (matchesUndef_iff _).mp hu, exec_undef_permissive hs]

/-- A strict step at an unsupported word is the fault of R88, carrying `pc` and the word. -/
theorem step_undef_strict {s : State} (hs : s.cfg.strictMode = true) (hu : matchesUndef s.fetchWord = true) :
    step s = .fault (.unsupportedInstruction s.pc s.fetchWord) := by
  rw [step, (matchesUndef_iff _).mp hu, exec_undef_strict hs]

/-- A step faults at an unsupported word only, whatever the mode and the fault. -/
theorem matchesUndef_of_step_fault {s : State} {f : Fault} (h : step s = .fault f) :
    matchesUndef s.fetchWord = true := by
  rcases step_cases s with ⟨r, v, e⟩ | ⟨_, e⟩ | ⟨w, hd, _, _⟩
  · rw [e] at h; cases h
  · rw [e] at h; cases h
  · exact (undef_of_decodeWord hd).2

/-- Settles O12: in permissive mode the step and `exec` are those of UNDEF's no-op; in strict mode an unsupported word faults,
and a fault comes from an unsupported word only. -/
theorem unsupportedWordsDoNothingOrFault : Obligations.UnsupportedWordsDoNothingOrFault := by
  unfold Obligations.UnsupportedWordsDoNothingOrFault
  refine fun s => ⟨fun hs => ⟨step_permissive_next hs, exec_undef_permissive hs, step_undef_permissive hs⟩,
    fun hs => ⟨?_, fun hu => ⟨_, _, step_undef_strict hs hu⟩⟩⟩
  rintro ⟨p, w, h⟩
  exact matchesUndef_of_step_fault h

end Sys2Proof.Machine

/-! ### The five phases of a step (R62 to R69) -/

namespace Sys2Proof.Machine

/-- Phase 3 writes one register or none, so a frame of everything else goes with every next state (R65). -/
theorem exec_next_frame {i : Instr} {s t : State} (h : exec i s = .next t) :
    sameButRegs s t ∧ ∃ r, ∀ j, j ≠ r → t.readGpr j = s.readGpr j := by
  rcases exec_cases i s with ⟨r, v, e⟩ | ⟨_, _, _, e⟩ | ⟨_, _, _, e⟩
  · rw [e] at h; cases h
    exact ⟨sameButRegs_writeGpr s r v, r, fun j hj => by rw [readGpr_writeGpr, if_neg fun hw => hj hw.1]⟩
  · rw [e] at h; cases h
    exact ⟨⟨rfl, rfl, rfl, rfl, rfl, fun _ => rfl⟩, 0, fun _ _ => rfl⟩
  · rw [e] at h; cases h

/-- No instruction is without a meaning. -/
theorem exec_ne_refused (i : Instr) (s : State) (r : Refusal) : exec i s ≠ .refused r := by
  intro h
  rcases exec_cases i s with ⟨_, _, e⟩ | ⟨_, _, _, e⟩ | ⟨_, _, _, e⟩
  · rw [e] at h; cases h
  · rw [e] at h; cases h
  · rw [e] at h; cases h

/-- Phases 4 and 5 in the terms of the state before the step: phase 3 has left `pc` and `cycle` alone (R62). -/
theorem step_eq_mapNext_exec (s : State) :
    step s = mapNext (fun t => { t with pc := s.pc + 4#32, cycle := s.cycle + 1 }) (exec (decodeWord s.fetchWord) s) := by
  cases h : exec (decodeWord s.fetchWord) s with
  | next t =>
    obtain ⟨⟨-, hpc, hcycle, -⟩, -⟩ := exec_next_frame h
    simp only [step, h, mapNext]
    rw [← hpc, ← hcycle]
    rfl
  | fault f => simp only [step, h, mapNext]
  | refused r => simp only [step, h, mapNext]

/-- The only step that does not complete is the strict one at an unsupported word (R67, R88). -/
theorem step_next_or_strict_undef (s : State) :
    (∃ t, step s = .next t) ∨ (s.cfg.strictMode = true ∧ matchesUndef s.fetchWord = true) := by
  rcases step_cases s with ⟨_, _, e⟩ | ⟨_, e⟩ | ⟨_, hd, hs, _⟩
  · exact .inl ⟨_, e⟩
  · exact .inl ⟨_, e⟩
  · exact .inr ⟨hs, (undef_of_decodeWord hd).2⟩

/-- A faulting `STEP` leaves the prior state (R85, R88). -/
theorem perform_step_fault {s : State} {f : Fault} (h : step s = .fault f) : perform .step s = (s, .stepFault f) := by
  simp only [perform, h]

/-! ### What phase 3 does not look at -/

/-- An update that keeps everything phase 3 uses beside `MEM` and commutes with its one write, that of the registers. -/
structure LeavesRegisterFile (f : State → State) : Prop where
  cfg : ∀ s, (f s).cfg = s.cfg
  regs : ∀ s, (f s).regs = s.regs
  pc : ∀ s, (f s).pc = s.pc
  setRegs : ∀ s v, (f s).setRegs v = f (s.setRegs v)

theorem leavesRegisterFile_setMem (m : Memory) : LeavesRegisterFile (State.setMem · m) :=
  ⟨fun _ => rfl, fun _ => rfl, fun _ => rfl, fun _ _ => rfl⟩

theorem leavesRegisterFile_setImage (im : Option (List Byte)) : LeavesRegisterFile (State.setImage · im) :=
  ⟨fun _ => rfl, fun _ => rfl, fun _ => rfl, fun _ _ => rfl⟩

namespace LeavesRegisterFile

variable {f : State → State} (hf : LeavesRegisterFile f)
include hf

theorem readGpr_eq (s : State) (i : RegIndex) : (f s).readGpr i = s.readGpr i := readGpr_congr (hf.cfg s) (hf.regs s) i

theorem writeGpr_comm (s : State) (i : RegIndex) (v : Word) : (f s).writeGpr i v = f (s.writeGpr i v) := by
  simp only [State.writeGpr, hf.cfg, hf.regs, hf.setRegs]
  split <;> rfl

/-- Phase 3 commutes with the update, provided LW, the one action that reads memory, loads the same word after it (R65). -/
theorem exec_comm (i : Instr) (s : State)
    (hload : ∀ rs rt imm, i = .lw rs rt imm → ∀ a, (f s).memRead a = s.memRead a) :
    exec i (f s) = mapNext f (exec i s) := by
  cases i with
  | addi rs rt imm => simp only [exec, execAddi, mapNext, hf.readGpr_eq, hf.writeGpr_comm]
  | lw rs rt imm =>
    simp only [exec, execLw, mapNext, State.effectiveAddress, hf.readGpr_eq, hf.writeGpr_comm, hload rs rt imm rfl]
  | add rs rt rd => simp only [exec, execAdd, mapNext, hf.readGpr_eq, hf.writeGpr_comm]
  | undef w =>
    cases hs : s.cfg.strictMode
    · rw [exec_undef_permissive hs, exec_undef_permissive ((hf.cfg s).symm ▸ hs), mapNext]
    · rw [exec_undef_strict hs, exec_undef_strict ((hf.cfg s).symm ▸ hs), mapNext, hf.pc]

end LeavesRegisterFile

/-- `IMAGE` has no part in a step: fetch and load read RAM only, and no phase writes `IMAGE` (R69). -/
theorem step_setImage (s : State) (im : Option (List Byte)) :
    step (s.setImage im) = mapNext (State.setImage · im) (step s) := by
  have hread : ∀ a, (s.setImage im).memRead a = s.memRead a := memRead_congr rfl rfl
  have hexec : ∀ i, exec i (s.setImage im) = mapNext (State.setImage · im) (exec i s) :=
    fun i => (leavesRegisterFile_setImage im).exec_comm i s fun _ _ _ _ => hread
  have hfetch : (s.setImage im).fetchWord = s.fetchWord := hread s.pc
  simp only [step, hfetch, hexec]
  cases exec (decodeWord s.fetchWord) s <;> rfl

/-! ### The statements of 40_step_pipeline.md -/

/-- Settles O2: in range the fetch is the big-endian read of R31; out of range it is the word 0, which is unsupported; and
either way the step is `exec` of the decoded word at the same state. -/
theorem fetchIsBigEndianWordAtPc : Obligations.FetchIsBigEndianWordAtPc := by
  unfold Obligations.FetchIsBigEndianWordAtPc
  intro s
  refine ⟨fun hb => ?_, fun hb => ?_, step_eq_mapNext_exec s⟩
  · rw [← physIndex_eq]
    exact memRead_toNat ((backed_iff s.cfg s.pc).mp hb)
  · have hzero : s.fetchWord = 0x00000000#32 := memRead_outOfRange ((not_backed_iff s.cfg s.pc).mp hb)
    exact ⟨hzero, fun hs => step_undef_permissive hs (by rw [hzero]; decide)⟩

/-- Settles O3: a next state has the fields of `step_next_fields`, and both conditions for completion exclude a strict
step at an unsupported word. -/
theorem completedStepAdvancesPcAndCycle : Obligations.CompletedStepAdvancesPcAndCycle := by
  unfold Obligations.CompletedStepAdvancesPcAndCycle
  refine fun s => ⟨fun t h => ?_, fun hcond => ?_⟩
  · obtain ⟨-, hpc, hcycle, -⟩ := step_next_fields h
    exact ⟨by rw [hpc, BitVec.toNat_add]; rfl, hcycle⟩
  · refine (step_next_or_strict_undef s).resolve_right fun ⟨hstrict, hundef⟩ => ?_
    simp [hstrict, hundef] at hcond

/-- Settles O4: the frame of phase 3, and that it commutes with a replacement of `MEM` unless the action is LW. -/
theorem executeWritesAtMostOneRegister : Obligations.ExecuteWritesAtMostOneRegister := by
  unfold Obligations.ExecuteWritesAtMostOneRegister
  exact ⟨fun _ _ _ h => exec_next_frame h,
    fun i s m hlw => (leavesRegisterFile_setMem m).exec_comm i s fun rs rt imm hi => absurd hi (hlw rs rt imm)⟩

/-- Settles O5: a step that does not complete is strict and at an unsupported word, where it faults and `STEP` leaves the
prior state; and it commutes with a replacement of `IMAGE`. -/
theorem stepIsTotalAndIgnoresImage : Obligations.StepIsTotalAndIgnoresImage := by
  unfold Obligations.StepIsTotalAndIgnoresImage
  refine fun s => ⟨step_permissive_next, fun _ => (step_next_or_strict_undef s).imp_right ?_, step_setImage s⟩
  rintro ⟨hstrict, hundef⟩
  have hfault := step_undef_strict hstrict hundef
  exact ⟨_, hfault, by rw [perform_step_fault hfault]⟩

/-- Settles O1: each outcome of phase 3 read off `step_eq_mapNext_exec`; a strict UNDEF word faults. -/
theorem stepRunsDecodedInstruction : Obligations.StepRunsDecodedInstruction := by
  unfold Obligations.StepRunsDecodedInstruction
  intro s i hi
  have hstep : step s = mapNext (fun t => { t with pc := s.pc + 4#32, cycle := s.cycle + 1 }) (exec i s) :=
    hi ▸ step_eq_mapNext_exec s
  refine ⟨fun t h => by rw [hstep, h, mapNext], fun f h => by rw [hstep, h, mapNext], exec_ne_refused i s, ?_⟩
  rintro hstrict w rfl
  exact ⟨_, step_undef_strict hstrict (undef_of_decodeWord hi).2⟩

end Sys2Proof.Machine

/-! ### ADDI and ADD (R72, R73) -/

namespace Sys2Proof.Machine

/-- Addition of words is addition of their numbers modulo 2^32 (R9). -/
theorem add32_eq_ofNat (a b : Word) : add32 a b = BitVec.ofNat 32 (a.toNat + b.toNat) := by
  rw [add32, BitVec.add_def]

/-- The action of ADDI as one register write, its result in numbers (R72). -/
theorem exec_addi (rs rt : RegIndex) (imm : BitVec 16) (s : State) :
    exec (.addi rs rt imm) s = .next (s.writeGpr rt (BitVec.ofInt 32 ((s.readGpr rs).toNat + imm.toInt))) := by
  rw [← add32_sext32]; rfl

/-- The action of ADD as one register write, its result in numbers (R73). -/
theorem exec_add (rs rt rd : RegIndex) (s : State) :
    exec (.add rs rt rd) s =
      .next (s.writeGpr rd (BitVec.ofNat 32 ((s.readGpr rs).toNat + (s.readGpr rt).toNat))) := by
  rw [← add32_eq_ofNat]; rfl

/-- An action that is one register write completes, with the frame of that write and its value in the register (R15, R65). -/
theorem exec_completes_of_writeGpr {i : Instr} {s : State} {r : RegIndex} {v : Word}
    (h : exec i s = .next (s.writeGpr r v)) :
    ∃ t, exec i s = .next t ∧ sameButRegs s t ∧ onlyRegWritten s t r v :=
  ⟨_, h, sameButRegs_writeGpr s r v, onlyRegWritten_writeGpr s r v⟩

/-- The ADDI row of R54 by mask and match: the mask keeps `op` alone. -/
theorem decodeWord_of_addiMask {w : Word} (h : w &&& 0xFC000000#32 = 0x20000000#32) :
    decodeWord w = .addi (rsField w) (rtField w) (immField w) := by
  have hrow : matchesAddi w = true := by rw [matchesAddi, h]; rfl
  exact decodeWord_addi ((matchesAddi_iff w).mp hrow)

/-- The ADD row of R54 by mask and match: the mask keeps `op` and `funct` alone, so `shamt` is free (R57). -/
theorem decodeWord_of_addMask {w : Word} (h : w &&& 0xFC00003F#32 = 0x00000020#32) :
    decodeWord w = .add (rsField w) (rtField w) (rdField w) := by
  have hrow : matchesAdd w = true := by rw [matchesAdd, h]; rfl
  obtain ⟨hop, hfunct⟩ := (matchesAdd_iff w).mp hrow
  exact decodeWord_add hop hfunct

/-- Settles O9: ADDI is the register write of `exec_addi`, and its mask fixes `op`. -/
theorem addiAddsSignExtendedImmediate : Obligations.AddiAddsSignExtendedImmediate := by
  unfold Obligations.AddiAddsSignExtendedImmediate
  exact fun s rs rt imm =>
    ⟨exec_completes_of_writeGpr (exec_addi rs rt imm s), fun _ h => ⟨_, _, _, decodeWord_of_addiMask h⟩⟩

/-- Settles O10: ADD is the register write of `exec_add`, and its mask fixes `op` and `funct`. -/
theorem addSumsTwoRegisters : Obligations.AddSumsTwoRegisters := by
  unfold Obligations.AddSumsTwoRegisters
  exact fun s rs rt rd =>
    ⟨exec_completes_of_writeGpr (exec_add rs rt rd s), fun _ h => ⟨_, _, _, decodeWord_of_addMask h⟩⟩

end Sys2Proof.Machine

/-! ### LW (R75) -/

namespace Sys2Proof.Machine

/-- The address of LW in numbers: the signed offset added to the base, reduced modulo 2^32 (R75). -/
theorem effectiveAddress_toNat (s : State) (rs : RegIndex) (imm : BitVec 16) :
    (s.effectiveAddress rs imm).toNat = ((((s.readGpr rs).toNat : Int) + imm.toInt) % 2 ^ 32).toNat := by
  rw [State.effectiveAddress, add32_sext32, BitVec.toNat_ofInt]
  rfl

/-- The action of LW as one register write, of the word read at its address (R75). -/
theorem exec_lw (rs rt : RegIndex) (imm : BitVec 16) (s : State) :
    exec (.lw rs rt imm) s = .next (s.writeGpr rt (s.memRead (s.effectiveAddress rs imm))) := rfl

/-- A read in the claims' terms, at any address: the big-endian word where RAM backs it, else 0 (R30, R31). -/
theorem memRead_toNat_eq_ite (s : State) (v : Word) :
    (s.memRead v).toNat =
      if backed s.cfg v.toNat then bigEndianAt s.mem (v.toNat - s.cfg.ksegBase.toNat) else 0 := by
  split
  case isTrue hb => rw [memRead_toNat ((backed_iff s.cfg v).mp hb), physIndex_eq]
  case isFalse hb => rw [memRead_outOfRange ((not_backed_iff s.cfg v).mp hb)]; rfl

/-- The LW row of R54 by mask and match: the mask keeps `op` alone. -/
theorem decodeWord_of_lwMask {w : Word} (h : w &&& 0xFC000000#32 = 0x8C000000#32) :
    decodeWord w = .lw (rsField w) (rtField w) (immField w) := by
  have hrow : matchesLw w = true := by rw [matchesLw, h]; rfl
  exact decodeWord_lw ((matchesLw_iff w).mp hrow)

/-- Settles O11: LW is the register write of `exec_lw`, the value it writes is the read of `memRead_toNat_eq_ite` at the
address of `effectiveAddress_toNat`, and its mask fixes `op`. -/
theorem lwLoadsBigEndianWordOrZero : Obligations.LwLoadsBigEndianWordOrZero := by
  unfold Obligations.LwLoadsBigEndianWordOrZero
  refine fun s rs rt imm => ⟨?_, fun _ h => ⟨_, _, _, decodeWord_of_lwMask h⟩⟩
  obtain ⟨t, hexec, hframe, hreg⟩ := exec_completes_of_writeGpr (exec_lw rs rt imm s)
  refine ⟨t, _, hexec, hframe, hreg, ?_⟩
  rw [← effectiveAddress_toNat]
  exact memRead_toNat_eq_ite s _

end Sys2Proof.Machine

/-! ### Words that are control transfers, stores or system instructions on a MIPS processor (R78 to R80) -/

namespace Sys2Proof.Machine

/-- What `op` and `funct` must avoid, as numbers, for a word to be one of the catch-all row: the entries of R55 and R56 that
stand for ADDI, LW and ADD. -/
theorem matchesUndef_of_op_funct {w : Word} (haddi : w.toNat / 2 ^ 26 ≠ 0x08) (hlw : w.toNat / 2 ^ 26 ≠ 0x23)
    (hadd : w.toNat / 2 ^ 26 = 0 → w.toNat % 2 ^ 6 ≠ 0x20) : matchesUndef w = true := by
  have hop : ∀ p : BitVec 6, opField w = p → w.toNat / 2 ^ 26 = p.toNat := fun p => (opField_eq_iff w p).mp
  exact (matchesUndef_iff w).mpr (decodeWord_undef (fun h => haddi (hop _ h)) (fun h => hlw (hop _ h))
    fun ⟨hzero, hfunct⟩ => hadd (hop _ hzero) ((functField_eq_iff w _).mp hfunct))

/-- A permissive step at a word of a table of `op` values, and of `funct` values under `op` 0, that lists none of ADDI, LW
and ADD, advances `pc` and `cycle` and does nothing else. -/
theorem step_of_listed_op_funct {s : State} {ops functs : List Nat} (hs : s.cfg.strictMode = false)
    (hops : 0x00 ∉ ops ∧ 0x08 ∉ ops ∧ 0x23 ∉ ops) (hfuncts : 0x20 ∉ functs)
    (h : s.fetchWord.toNat / 2 ^ 26 ∈ ops ∨
      s.fetchWord.toNat / 2 ^ 26 = 0 ∧ s.fetchWord.toNat % 2 ^ 6 ∈ functs) :
    step s = .next { s with pc := s.pc + 4#32, cycle := s.cycle + 1 } := by
  obtain ⟨hzero, haddi, hlw⟩ := hops
  refine step_undef_permissive hs ?_
  rcases h with hmem | ⟨hop, hmem⟩
  · exact matchesUndef_of_op_funct (fun e => haddi (e ▸ hmem)) (fun e => hlw (e ▸ hmem)) fun e => (hzero (e ▸ hmem)).elim
  · exact matchesUndef_of_op_funct (by rw [hop]; decide) (by rw [hop]; decide) fun _ e => hfuncts (e ▸ hmem)

/-- Settles O13: the tables of R78 and R79 list none of ADDI, LW and ADD. -/
theorem controlTransferAndStoreWordsOnlyAdvance : Obligations.ControlTransferAndStoreWordsOnlyAdvance := by
  unfold Obligations.ControlTransferAndStoreWordsOnlyAdvance
  exact fun _ hs h => step_of_listed_op_funct hs (by decide) (by decide) h

/-- Settles O14: the table of R80 lists none of ADDI, LW and ADD. -/
theorem systemWordsOnlyAdvance : Obligations.SystemWordsOnlyAdvance := by
  unfold Obligations.SystemWordsOnlyAdvance
  exact fun _ hs h => step_of_listed_op_funct hs (by decide) (by decide) h

end Sys2Proof.Machine

/-! ### Permissive mode has no fault (R84) -/

namespace Sys2Proof.Machine

/-- Phase 3 completes in permissive mode, whatever the instruction: its only other outcome is the strict fault (R84). -/
theorem exec_permissive_next {s : State} (hs : s.cfg.strictMode = false) (i : Instr) : ∃ t, exec i s = .next t := by
  rcases exec_cases i s with ⟨_, _, e⟩ | ⟨_, _, _, e⟩ | ⟨_, _, hstrict, _⟩
  · exact ⟨_, e⟩
  · exact ⟨_, e⟩
  · rw [hs] at hstrict; cases hstrict

/-- A permissive run of any length completes: each step does, and it leaves the mode as it was (R27, R84). -/
theorem runSteps_permissive_next {s : State} (hs : s.cfg.strictMode = false) (n : Nat) :
    ∃ t, runSteps n s = .next t := by
  induction n generalizing s with
  | zero => exact ⟨s, rfl⟩
  | succ n ih =>
    obtain ⟨t, ht⟩ := step_permissive_next hs
    obtain ⟨hcfg, -⟩ := step_next_fields ht
    simpa only [runSteps, ht] using ih (hcfg ▸ hs)

/-- A completed `STEP` leaves the next state and replies that it is done. -/
theorem perform_step_next {s t : State} (h : step s = .next t) : perform .step s = (t, .done) := by
  simp only [perform, h]

/-- Settles O15: phase 3, the run and the host's `STEP` each complete in permissive mode. -/
theorem permissiveNeverFaults : Obligations.PermissiveNeverFaults := by
  unfold Obligations.PermissiveNeverFaults
  intro s hs
  obtain ⟨t, ht⟩ := step_permissive_next hs
  exact ⟨exec_permissive_next hs, runSteps_permissive_next hs, by rw [perform_step_next ht]⟩

end Sys2Proof.Machine

/-! ### Which host operations can fail (R100) -/

namespace Sys2Proof.Machine

/-- The replies that report a failure; the others are done or carry what was asked for. -/
def Reply.failed : Reply → Bool
  | .done | .word _ | .count _ | .snapshot _ => false
  | .snapshotMismatch | .stepFault _ | .stepRefused _ => true

/-- A step that does not complete is a fault: no word is without a meaning. -/
theorem step_next_or_fault (s : State) : (∃ t, step s = .next t) ∨ ∃ f, step s = .fault f :=
  (step_next_or_strict_undef s).imp_right fun ⟨hstrict, hundef⟩ => ⟨_, step_undef_strict hstrict hundef⟩

/-- The wrong shape (R109): another number of words or of bytes. -/
theorem fits_eq_false_iff (p : Snapshot) (c : Config) :
    p.fits c = false ↔ p.words.length ≠ 33 ∨ p.bytes.length ≠ c.memSize := by
  rw [← Bool.not_eq_true, fits_iff, not_and_or]

/-- The two failures of the host interface: the strict fault of `STEP`, and `RESTORE` of the wrong shape (R88, R100). -/
theorem perform_failed_cases {op : HostOp} {s : State} (h : (perform op s).2.failed = true) :
    (op = .step ∧ ∃ f, (perform op s).2 = .stepFault f) ∨
      ∃ p, op = .restore p ∧ p.fits s.cfg = false ∧ (perform op s).2 = .snapshotMismatch := by
  cases op with
  | step =>
    rcases step_next_or_fault s with ⟨t, e⟩ | ⟨f, e⟩
    · rw [perform_step_next e] at h; cases h
    · exact .inl ⟨rfl, f, by rw [perform_step_fault e]⟩
  | restore p =>
    cases hfit : p.fits s.cfg with
    | true => rw [perform_restore_fits hfit] at h; cases h
    | false => exact .inr ⟨p, rfl, hfit, by rw [perform_restore_mismatch hfit]⟩
  | reset | loadImage | snapshot | readPc | readCycle | readGpr | readMem32 | writeMem32 | mutate => cases h

/-- `SnapshotMismatch` comes from a `RESTORE` of the wrong shape only (R100). -/
theorem restore_of_perform_snapshotMismatch {op : HostOp} {s : State} (h : (perform op s).2 = .snapshotMismatch) :
    ∃ p, op = .restore p ∧ p.fits s.cfg = false := by
  rcases perform_failed_cases (congrArg Reply.failed h) with ⟨_, f, e⟩ | ⟨p, hop, hfit, _⟩
  · rw [e] at h; cases h
  · exact ⟨p, hop, hfit⟩

/-- A fault comes from `STEP` only (R100). -/
theorem step_of_perform_stepFault {op : HostOp} {s : State} {f : Fault} (h : (perform op s).2 = .stepFault f) :
    op = .step := by
  rcases perform_failed_cases (congrArg Reply.failed h) with ⟨hop, _⟩ | ⟨_, _, _, e⟩
  · exact hop
  · rw [e] at h; cases h

/-- No host operation ends in a refusal. -/
theorem perform_ne_stepRefused (op : HostOp) (s : State) (r : Refusal) : (perform op s).2 ≠ .stepRefused r := by
  intro h
  rcases perform_failed_cases (congrArg Reply.failed h) with ⟨_, _, e⟩ | ⟨_, _, _, e⟩
  · rw [e] at h; cases h
  · rw [e] at h; cases h

/-- `POWER_ON` creates an instance for parameters that meet the constraints of R5 (R101). -/
theorem powerOn_of_wf {c : Config} (h : c.wf = true) : powerOn c = .next (State.fresh c) := if_pos h

/-- Settles O36: the two outcomes of `RESTORE` by the shape of the snapshot, and for the rest the two failures
`perform_failed_cases` leaves to the host interface. -/
theorem snapshotMismatchChangesNothing : Obligations.SnapshotMismatchChangesNothing := by
  unfold Obligations.SnapshotMismatchChangesNothing
  refine ⟨fun s p => ⟨fun hshape => ?_, fun hwords hbytes => ?_⟩, fun op s h => ?_, perform_ne_stepRefused,
    fun _ _ _ => step_of_perform_stepFault, fun _ _ _ _ => ⟨rfl, rfl, rfl⟩, fun _ hc => ⟨_, powerOn_of_wf hc⟩⟩
  · exact perform_restore_mismatch ((fits_eq_false_iff p s.cfg).mpr hshape)
  · rw [perform_restore_fits ((fits_iff p s.cfg).mpr ⟨hwords, hbytes⟩)]
  · obtain ⟨p, hop, hfit⟩ := restore_of_perform_snapshotMismatch h
    exact ⟨p, hop, (fits_eq_false_iff p s.cfg).mp hfit⟩

end Sys2Proof.Machine

/-! ### No load delay (R119) -/

namespace Sys2Proof.Machine

/-- A register right after a write to it: a hard-wired register 0 reads 0, any other the value written (R15). -/
theorem readGpr_writeGpr_self (s : State) (i : RegIndex) (v : Word) :
    (s.writeGpr i v).readGpr i = if s.cfg.zeroRegHardwired = true ∧ i = 0 then 0#32 else v := by
  by_cases hzero : s.cfg.zeroRegHardwired = true ∧ i = 0
  · have hwired : isHardwired s.cfg i = true := (isHardwired_iff s.cfg i).mpr hzero
    rw [if_pos hzero, State.readGpr, State.writeGpr_cfg, if_pos hwired]
  · have hstored : isHardwired s.cfg i = false := Bool.eq_false_iff.mpr (mt (isHardwired_iff s.cfg i).mp hzero)
    rw [if_neg hzero, readGpr_writeGpr, if_pos ⟨rfl, hstored⟩]

/-- The address of LW as the word of the signed sum (R75). -/
theorem effectiveAddress_eq_ofInt (s : State) (rs : RegIndex) (imm : BitVec 16) :
    s.effectiveAddress rs imm = BitVec.ofInt 32 ((s.readGpr rs).toNat + imm.toInt) := add32_sext32 (s.readGpr rs) imm

/-- A step whose action is one register write completes, and the register reads the new value in the state it leaves: phases
4 and 5 touch no register (R62). -/
theorem step_writes_of_exec_writeGpr {s : State} {i : Instr} {r : RegIndex} {v : Word}
    (hi : decodeWord s.fetchWord = i) (hexec : exec i s = .next (s.writeGpr r v)) :
    ∃ t, step s = .next t ∧ t.readGpr r = if s.cfg.zeroRegHardwired = true ∧ r = 0 then 0#32 else v :=
  ⟨(s.writeGpr r v).advancePc.countCycle, by rw [step, hi, hexec],
    (readGpr_congr rfl rfl r).trans (readGpr_writeGpr_self s r v)⟩

/-- Settles O8: LW, ADD, ADDI and a second LW are each a step that is one register write, the second from the registers the
first left and with the same parameters. -/
theorem loadedValueIsReadByNextInstruction : Obligations.LoadedValueIsReadByNextInstruction := by
  unfold Obligations.LoadedValueIsReadByNextInstruction
  intro s rs rt imm hlw
  obtain ⟨t, hstep, hload⟩ := step_writes_of_exec_writeGpr hlw (exec_lw rs rt imm s)
  obtain ⟨hcfg, -⟩ := step_next_fields hstep
  refine ⟨t, hstep, ?_, fun ra rb rd hi => ?_, fun ra rd k hi => ?_, fun ra rd k hi => ?_⟩
  · rw [hload, effectiveAddress_eq_ofInt]
  · rw [← hcfg]; exact step_writes_of_exec_writeGpr hi (exec_add ra rb rd t)
  · rw [← hcfg]; exact step_writes_of_exec_writeGpr hi (exec_addi ra rd k t)
  · rw [← hcfg, ← effectiveAddress_eq_ofInt]; exact step_writes_of_exec_writeGpr hi (exec_lw ra rd k t)

end Sys2Proof.Machine

/-! ### Inspection and the host's memory write (R111, R112) -/

namespace Sys2Proof.Machine

/-- `STEP` leaves `MEM` alone, whether it completes or faults (R65, R88). -/
theorem perform_step_mem (s : State) : (perform .step s).1.mem = s.mem := by
  rcases step_next_or_fault s with ⟨t, h⟩ | ⟨f, h⟩
  · obtain ⟨-, -, -, hmem, -⟩ := step_next_fields h
    rw [perform_step_next h]
    exact hmem
  · rw [perform_step_fault h]

/-- Settles O38: `MemWrite` is the identity out of range; and of the operations the statement does not list, `STEP` keeps
`MEM` by `perform_step_mem` and the others return the state they were given. -/
theorem onlyHostWritesChangeMemory : Obligations.OnlyHostWritesChangeMemory := by
  unfold Obligations.OnlyHostWritesChangeMemory
  refine ⟨fun _ _ _ => rfl, fun s v _ h => memWrite_outOfRange ((not_backed_iff s.cfg v).mp h), fun op s hmem => ?_⟩
  cases op with
  | writeMem32 v w => exact .inl ⟨v, w, rfl⟩
  | loadImage img => exact .inr (.inl ⟨img, rfl⟩)
  | reset => exact .inr (.inr (.inl rfl))
  | restore p => exact .inr (.inr (.inr (.inl ⟨p, rfl⟩)))
  | mutate d => exact .inr (.inr (.inr (.inr ⟨d, rfl⟩)))
  | step => exact absurd (perform_step_mem s) hmem
  | snapshot | readPc | readCycle | readGpr | readMem32 => exact absurd rfl hmem

/-- Settles O37: each of the four reads is one line of `perform`, which pairs the value with the state it was given. -/
theorem inspectionReadsChangeNothing : Obligations.InspectionReadsChangeNothing := by
  unfold Obligations.InspectionReadsChangeNothing
  exact fun _ _ _ => ⟨rfl, rfl, rfl, rfl⟩

end Sys2Proof.Machine

/-! ### The decoder and the encoder undo each other (R54, R60) -/

namespace Sys2Proof.Machine

/-- The fields of a word whose number is laid out as `op`, `rs`, `rt` and 16 low bits `k` (R50, R51). -/
theorem fields_of_toNat_eq {w : Word} {rs rt : RegIndex} {op k : Nat} (hk : k < 2 ^ 16)
    (hw : w.toNat = op * 2 ^ 26 + rs.val * 2 ^ 21 + rt.val * 2 ^ 16 + k) :
    rsField w = rs ∧ rtField w = rt ∧ w.toNat % 2 ^ 16 = k := by
  have hs := rs.isLt
  have ht := rt.isLt
  refine ⟨Fin.ext ?_, Fin.ext ?_, by omega⟩
  · rw [rsField_val]; omega
  · rw [rtField_val]; omega

/-- The same layout read the other way: a word is its `op`, `rs` and `rt` and its 16 low bits. -/
theorem toNat_eq_fields (w : Word) :
    w.toNat = (opField w).toNat * 2 ^ 26 + (rsField w).val * 2 ^ 21 + (rtField w).val * 2 ^ 16 + w.toNat % 2 ^ 16 := by
  rw [opField_toNat, rsField_val, rtField_val]
  omega

/-- The mask that clears `shamt`, in numbers: bits 31 to 11 and bits 5 to 0 stay. -/
theorem and_shamtMask_toNat (w : Word) :
    (w &&& 0xFFFFF83F#32).toNat = w.toNat / 2 ^ 11 * 2 ^ 11 + w.toNat % 2 ^ 6 := by
  have hbits : w &&& 0xFFFFF83F#32 = w >>> 11 <<< 11 ||| (functField w).setWidth 32 := by
    apply BitVec.eq_of_getLsbD_eq
    intro i hi
    interval_cases i <;> simp [functField]
  have hlow : ((functField w).setWidth 32).toNat = w.toNat % 2 ^ 6 := by
    rw [BitVec.toNat_setWidth, functField_toNat]; omega
  have hhigh : (w >>> 11 <<< 11).toNat = (w.toNat / 2 ^ 11) <<< 11 := by
    have hw := w.isLt
    rw [BitVec.toNat_shiftLeft, BitVec.toNat_ushiftRight, Nat.shiftRight_eq_div_pow, Nat.shiftLeft_eq]
    omega
  rw [hbits, BitVec.toNat_or, hlow, hhigh, ← Nat.shiftLeft_add_eq_or_of_lt (by omega), Nat.shiftLeft_eq]

theorem decodeWord_encode_addi (rs rt : RegIndex) (imm : BitVec 16) :
    decodeWord (encode (.addi rs rt imm)) = .addi rs rt imm := by
  have hop := (matchesAddi_iff _).mp (Laws.EncodingRow.addi rs rt imm rfl)
  obtain ⟨hrs, hrt, hlow⟩ := fields_of_toNat_eq (op := 0x08) imm.isLt (encode_addi_toNat rs rt imm)
  have himm := BitVec.eq_of_toNat_eq ((immField_toNat _).trans hlow)
  rw [decodeWord_addi hop, hrs, hrt, himm]

theorem decodeWord_encode_lw (rs rt : RegIndex) (imm : BitVec 16) :
    decodeWord (encode (.lw rs rt imm)) = .lw rs rt imm := by
  have hop := (matchesLw_iff _).mp (Laws.EncodingRow.lw rs rt imm rfl)
  obtain ⟨hrs, hrt, hlow⟩ := fields_of_toNat_eq (op := 0x23) imm.isLt (encode_lw_toNat rs rt imm)
  have himm := BitVec.eq_of_toNat_eq ((immField_toNat _).trans hlow)
  rw [decodeWord_lw hop, hrs, hrt, himm]

theorem decodeWord_encode_add (rs rt rd : RegIndex) : decodeWord (encode (.add rs rt rd)) = .add rs rt rd := by
  obtain ⟨hop, hfunct⟩ := (matchesAdd_iff _).mp (Laws.EncodingRow.add rs rt rd rfl)
  have hd := rd.isLt
  have hw := encode_add_toNat rs rt rd
  obtain ⟨hrs, hrt, -⟩ := fields_of_toNat_eq (rs := rs) (rt := rt) (op := 0x00) (k := rd.val * 2 ^ 11 + 0x20)
    (by omega) (hw.trans (by omega))
  have hrd : rdField (encode (.add rs rt rd)) = rd := Fin.ext (by rw [rdField_val]; omega)
  rw [decodeWord_add hop hfunct, hrs, hrt, hrd]

/-- The decoder undoes the encoder on every well-formed instruction. -/
theorem decodeWord_encode {i : Instr} (hi : i.wf = true) : decodeWord (encode i) = i := by
  cases i with
  | addi rs rt imm => exact decodeWord_encode_addi rs rt imm
  | lw rs rt imm => exact decodeWord_encode_lw rs rt imm
  | add rs rt rd => exact decodeWord_encode_add rs rt rd
  | undef w => exact (matchesUndef_iff w).mp hi

/-- Settles O27: the word decodes by `decodeWord_encode`, and its bytes followed by anything as the word does. -/
theorem decodeOfEncodeIsIdentity : Obligations.DecodeOfEncodeIsIdentity := by
  unfold Obligations.DecodeOfEncodeIsIdentity
  exact fun i hi => ⟨decodeWord_encode hi, fun rest => by rw [decode_wordBytes, decodeWord_encode hi]⟩

/-- The four lines of R54 as a case split, each with the row that matches. -/
theorem decodeWord_cases (w : Word) :
    (opField w = 0x08#6 ∧ decodeWord w = .addi (rsField w) (rtField w) (immField w)) ∨
      (opField w = 0x23#6 ∧ decodeWord w = .lw (rsField w) (rtField w) (immField w)) ∨
      (matchesAdd w = true ∧ decodeWord w = .add (rsField w) (rtField w) (rdField w)) ∨
      (matchesUndef w = true ∧ decodeWord w = .undef w) := by
  by_cases haddi : opField w = 0x08#6
  · exact .inl ⟨haddi, decodeWord_addi haddi⟩
  by_cases hlw : opField w = 0x23#6
  · exact .inr (.inl ⟨hlw, decodeWord_lw hlw⟩)
  by_cases hadd : opField w = 0x00#6 ∧ functField w = 0x20#6
  · exact .inr (.inr (.inl ⟨(matchesAdd_iff w).mpr hadd, decodeWord_add hadd.1 hadd.2⟩))
  · have hundef := decodeWord_undef haddi hlw hadd
    exact .inr (.inr (.inr ⟨(matchesUndef_iff w).mpr hundef, hundef⟩))

/-- What any word decodes to is well formed: only UNDEF has a condition, and only its row gives UNDEF. -/
theorem wf_decodeWord (w : Word) : (decodeWord w).wf = true := by
  rcases decodeWord_cases w with ⟨_, e⟩ | ⟨_, e⟩ | ⟨_, e⟩ | ⟨hundef, e⟩
  · rw [e]; rfl
  · rw [e]; rfl
  · rw [e]; rfl
  · rw [e]; exact hundef

/-- The encoder undoes the decoder on every word but those of ADD: `op`, two registers and an immediate fill it. -/
theorem encode_decodeWord_of_not_matchesAdd {w : Word} (h : matchesAdd w = false) : encode (decodeWord w) = w := by
  have hw := toNat_eq_fields w
  rcases decodeWord_cases w with ⟨hop, e⟩ | ⟨hop, e⟩ | ⟨hadd, _⟩ | ⟨_, e⟩
  · rw [hop] at hw
    rw [e]
    exact BitVec.eq_of_toNat_eq (by rw [encode_addi_toNat, immField_toNat]; exact hw.symm)
  · rw [hop] at hw
    rw [e]
    exact BitVec.eq_of_toNat_eq (by rw [encode_lw_toNat, immField_toNat]; exact hw.symm)
  · rw [h] at hadd; cases hadd
  · rw [e]; rfl

/-- An ADD word comes back from decoding and encoding with `shamt` cleared (R57). -/
theorem encode_decodeWord_of_matchesAdd {w : Word} (h : matchesAdd w = true) :
    encode (decodeWord w) = w &&& 0xFFFFF83F#32 := by
  obtain ⟨hop, hfunct⟩ := (matchesAdd_iff w).mp h
  have hop' := (opField_eq_iff w _).mp hop
  have hfunct' := (functField_eq_iff w _).mp hfunct
  simp only [BitVec.toNat_ofNat] at hop' hfunct'
  rw [decodeWord_add hop hfunct]
  apply BitVec.eq_of_toNat_eq
  rw [encode_add_toNat, and_shamtMask_toNat, rsField_val, rtField_val, rdField_val]
  omega

/-- Words that differ in `shamt` alone decode alike if one is an ADD word, for the other is then too. -/
theorem decodeWord_eq_of_and_shamtMask_eq {w w' : Word} (h : matchesAdd w = true)
    (hmask : w' &&& 0xFFFFF83F#32 = w &&& 0xFFFFF83F#32) : decodeWord w' = decodeWord w := by
  have hnum := congrArg BitVec.toNat hmask
  rw [and_shamtMask_toNat, and_shamtMask_toNat] at hnum
  have hlow : w'.toNat % 2 ^ 6 = w.toNat % 2 ^ 6 := by omega
  have hhigh : w'.toNat / 2 ^ 11 = w.toNat / 2 ^ 11 := by omega
  have hdiv : ∀ k, w'.toNat / 2 ^ (11 + k) = w.toNat / 2 ^ (11 + k) := fun k => by
    rw [Nat.pow_add, ← Nat.div_div_eq_div_mul, ← Nat.div_div_eq_div_mul, hhigh]
  have hop : opField w' = opField w := BitVec.eq_of_toNat_eq (by rw [opField_toNat, opField_toNat, hdiv 15])
  have hfunct : functField w' = functField w :=
    BitVec.eq_of_toNat_eq (by rw [functField_toNat, functField_toNat, hlow])
  have hrs : rsField w' = rsField w := Fin.ext (by rw [rsField_val, rsField_val, hdiv 10])
  have hrt : rtField w' = rtField w := Fin.ext (by rw [rtField_val, rtField_val, hdiv 5])
  have hrd : rdField w' = rdField w := Fin.ext (by rw [rdField_val, rdField_val, hhigh])
  obtain ⟨hop0, hfunct0⟩ := (matchesAdd_iff w).mp h
  rw [decodeWord_add hop0 hfunct0, decodeWord_add (hop.trans hop0) (hfunct.trans hfunct0), hrs, hrt, hrd]

/-- Settles O28: well-formedness by the rows of `decodeWord_cases`; a word is the numbers of its fields, of which the
decoder of ADD drops `shamt` alone. -/
theorem encodeOfDecodeClearsOnlyShamt : Obligations.EncodeOfDecodeClearsOnlyShamt := by
  unfold Obligations.EncodeOfDecodeClearsOnlyShamt
  exact fun w => ⟨wf_decodeWord w, encode_decodeWord_of_not_matchesAdd,
    fun h => ⟨encode_decodeWord_of_matchesAdd h, fun _ hmask => decodeWord_eq_of_and_shamtMask_eq h hmask⟩⟩

/-- The last row of R54 by mask and match: no pair matches. -/
theorem decodeWord_of_noMask {w : Word} (haddi : w &&& 0xFC000000#32 ≠ 0x20000000#32)
    (hlw : w &&& 0xFC000000#32 ≠ 0x8C000000#32) (hadd : w &&& 0xFC00003F#32 ≠ 0x00000020#32) :
    decodeWord w = .undef w := by
  rw [← matchesUndef_iff]
  simp [matchesUndef, matchesAddi, matchesLw, matchesAdd, haddi, hlw, hadd]

/-- Settles O26: each mask and match pair gives its row, and every operand is the field of the word with its bits. -/
theorem decoderReadsFieldsOfTheLayout : Obligations.DecoderReadsFieldsOfTheLayout := by
  unfold Obligations.DecoderReadsFieldsOfTheLayout
  exact fun w => ⟨fun h => ⟨_, _, _, decodeWord_of_addiMask h, rsField_val w, rtField_val w, immField_toNat w⟩,
    fun h => ⟨_, _, _, decodeWord_of_lwMask h, rsField_val w, rtField_val w, immField_toNat w⟩,
    fun h => ⟨_, _, _, decodeWord_of_addMask h, rsField_val w, rtField_val w, rdField_val w⟩, decodeWord_of_noMask⟩

/-- Settles O29: six closed words, each decoded by evaluation. -/
theorem sampleWordsDecode : Obligations.SampleWordsDecode := by
  unfold Obligations.SampleWordsDecode
  refine ⟨?_, ?_, ?_, ?_, ?_, ?_⟩ <;> decide

end Sys2Proof.Machine

/-! ### The invariant of an instance holds from creation on and every operation keeps it -/

namespace Sys2Proof.Machine

/-- The constraints of Table R5 as propositions. -/
theorem config_wf_iff (c : Config) :
    c.wf = true ↔ 4096 ≤ c.memSize ∧ c.ksegBase.toNat + c.memSize ≤ 2 ^ 32 ∧ c.resetVector ≠ c.ksegBase := by
  simp only [Config.wf, Bool.and_eq_true, decide_eq_true_eq, bne_iff_ne, and_assoc]

/-- `POWER_ON` refuses parameters outside the constraints (D2). -/
theorem powerOn_of_not_wf {c : Config} (h : c.wf = false) : powerOn c = .refused .parameterConstraint := by
  rw [powerOn, h, if_neg Bool.false_ne_true]

/-- What `POWER_ON` can create: the fresh state, and only for parameters that meet the constraints. -/
theorem powerOn_next {c : Config} {s : State} (h : powerOn c = .next s) : c.wf = true ∧ s = State.fresh c := by
  cases hc : c.wf with
  | true => rw [powerOn_of_wf hc] at h; cases h; exact ⟨rfl, rfl⟩
  | false => rw [powerOn_of_not_wf hc] at h; cases h

/-- Settles O30: the constraints as `config_wf_iff` states them, and one outcome of `powerOn` for each value of `wf`. -/
theorem powerOnGivesFreshState : Obligations.PowerOnGivesFreshState := by
  unfold Obligations.PowerOnGivesFreshState
  refine ⟨config_wf_iff, fun c hc => ?_, fun _ => powerOn_of_not_wf, powerOn_of_wf (by decide)⟩
  exact ⟨State.fresh c, powerOn_of_wf hc, rfl, readGpr_fresh c, rfl, rfl, fun _ => rfl, rfl⟩

theorem inv_fresh {c : Config} (hc : c.wf = true) : (State.fresh c).Inv :=
  ⟨hc, rfl, rfl, fun _ => State.fresh_reg c 0⟩

/-- Settles O43: what `POWER_ON` creates is fresh, as `State.reset` is by definition. -/
theorem freshStatesMeetInvariant : Obligations.FreshStatesMeetInvariant := by
  unfold Obligations.FreshStatesMeetInvariant
  refine ⟨fun c s h => ?_, inv_fresh (by decide)⟩
  obtain ⟨hc, rfl⟩ := powerOn_next h
  exact inv_fresh hc

/-- A state that keeps good parameters meets the invariant if its memory is canonical and in size and a hard-wired
register 0 stores 0. -/
theorem inv_of_cfg_eq {s t : State} (hc : s.cfg.wf = true) (hcfg : t.cfg = s.cfg) (hwf : Memory.wf t.mem = true)
    (hsize : Memory.within s.cfg.memSize t.mem = true)
    (hzero : s.cfg.zeroRegHardwired = true → t.regs[(0 : RegIndex)] = 0#32) : t.Inv := by
  rw [State.Inv, hcfg]
  exact ⟨hc, hwf, hsize, hzero⟩

/-- The invariant speaks of the parameters, the stored registers and `MEM` alone. -/
theorem inv_congr {s t : State} (hcfg : t.cfg = s.cfg) (hregs : t.regs = s.regs) (hmem : t.mem = s.mem) (h : s.Inv) :
    t.Inv := by
  obtain ⟨hc, hwf, hsize, hzero⟩ := h
  exact inv_of_cfg_eq hc hcfg (hmem ▸ hwf) (hmem ▸ hsize) (hregs ▸ hzero)

/-- A completed step is one register write or none, and then phases 4 and 5, which the invariant does not see. -/
theorem step_keeps_inv {s t : State} (h : s.Inv) (hstep : step s = .next t) : t.Inv := by
  rcases step_cases s with ⟨r, v, e⟩ | ⟨_, e⟩ | ⟨w, _, _, e⟩
  · rw [e] at hstep; cases hstep
    exact inv_congr rfl rfl rfl (inv_writeGpr h r v)
  · rw [e] at hstep; cases hstep
    exact inv_congr rfl rfl rfl h
  · rw [e] at hstep; cases hstep

/-- Settles O41: `step_keeps_inv`, from the cases of a step. -/
theorem everyStepKeepsInvariant : Obligations.EveryStepKeepsInvariant := by
  unfold Obligations.EveryStepKeepsInvariant
  exact fun _ _ => step_keeps_inv

theorem inv_bootTransfer {s : State} (img : List Byte) (h : s.Inv) : (s.bootTransfer img).Inv := by
  obtain ⟨hc, hwf, hsize, hzero⟩ := h
  exact inv_of_cfg_eq hc rfl (wf_bootTransfer img hwf) (within_bootTransfer img hsize) hzero

theorem inv_loadImage {s : State} (img : List Byte) (h : s.Inv) : (s.loadImage img).Inv :=
  inv_bootTransfer img (inv_congr (t := s.setImage (some img)) rfl rfl rfl h)

/-- `RESET` is a new instance, with the boot transfer if there is an image. -/
theorem inv_resetOp {s : State} (h : s.Inv) : s.resetOp.Inv := by
  obtain ⟨hc, -⟩ := h
  have hfresh : (State.fresh s.cfg).Inv := inv_fresh hc
  cases himg : s.image with
  | none => rw [resetOp_none himg]; exact hfresh
  | some img => rw [resetOp_some himg]; exact inv_loadImage img hfresh

/-- `RESTORE` of a snapshot that fits writes exactly `MEM_SIZE` bytes into an empty memory, and no hard-wired
register. -/
theorem inv_replaceBy {s : State} {p : Snapshot} (h : s.Inv) (hfit : p.fits s.cfg = true) : (s.replaceBy p).Inv := by
  obtain ⟨hc, -⟩ := h
  obtain ⟨-, hbytes⟩ := (fits_iff p s.cfg).mp hfit
  refine inv_of_cfg_eq hc (replaceBy_cfg s p) (Memory.wf_writeBytes 0 p.bytes rfl)
    (Memory.within_writeBytes 0 p.bytes rfl (by omega)) fun hwired => ?_
  rw [replaceBy_reg, if_pos ((isHardwired_iff s.cfg 0).mpr ⟨hwired, rfl⟩)]

theorem inv_memWrite {s : State} (v w : Word) (h : s.Inv) : (s.memWrite v w).Inv := by
  obtain ⟨hc, hwf, hsize, hzero⟩ := h
  exact inv_of_cfg_eq hc (s.memWrite_cfg v w) (wf_memWrite v w hwf) (within_memWrite v w hsize)
    (by rwa [State.memWrite_regs])

/-- A mutation pokes bytes inside `MEM` only, and its register writes are those of an instruction. -/
theorem inv_mutate {s : State} (d : Mutation) (h : s.Inv) : (s.mutate d).Inv := by
  obtain ⟨hc, hwf, hsize, hzero⟩ := h
  obtain ⟨hcfg, -, -, -, hregs, hmem⟩ := mutate_fields s d
  refine inv_of_cfg_eq hc hcfg ?_ ?_ fun hwired => ?_
  · rw [hmem]; exact Memory.wf_pokeBytes d.byteWrites hwf
  · rw [hmem]; exact Memory.within_pokeBytes d.byteWrites hsize
  · rw [hregs, writeGprs_reg_zero d.regWrites hwired, hzero hwired]

/-- Every operation of the host keeps the invariant; a failed one and an inspection leave the state they were given. -/
theorem perform_keeps_inv (op : HostOp) {s : State} (h : s.Inv) : (perform op s).1.Inv := by
  cases op with
  | step =>
    rcases step_next_or_fault s with ⟨t, e⟩ | ⟨f, e⟩
    · rw [perform_step_next e]; exact step_keeps_inv h e
    · rw [perform_step_fault e]; exact h
  | reset => exact inv_resetOp h
  | loadImage img => exact inv_loadImage img h
  | restore p =>
    cases hfit : p.fits s.cfg with
    | true => rw [perform_restore_fits hfit]; exact inv_replaceBy h hfit
    | false => rw [perform_restore_mismatch hfit]; exact h
  | writeMem32 v w => exact inv_memWrite v w h
  | mutate d => exact inv_mutate d h
  | snapshot | readPc | readCycle | readGpr | readMem32 => exact h

/-- Settles O42: `perform_keeps_inv`, one lemma per operation that writes state. -/
theorem everyHostOperationKeepsInvariant : Obligations.EveryHostOperationKeepsInvariant := by
  unfold Obligations.EveryHostOperationKeepsInvariant
  exact fun op _ => perform_keeps_inv op

end Sys2Proof.Machine

/-! ### Runs of steps (R70, R71) -/

namespace Sys2Proof.Machine

/-- A run of `n + 1` steps is a completed step and then a run of `n`. -/
theorem runSteps_succ_next {n : Nat} {s t : State} (h : runSteps (n + 1) s = .next t) :
    ∃ u, step s = .next u ∧ runSteps n u = .next t := by
  cases hstep : step s with
  | next u => exact ⟨u, rfl, by simpa only [runSteps, hstep] using h⟩
  | fault f => simp only [runSteps, hstep] at h; cases h
  | refused r => simp only [runSteps, hstep] at h; cases h

/-- The fields a completed run leaves or advances: `step_next_fields`, `n` times. -/
theorem runSteps_next_fields {n : Nat} {s t : State} (h : runSteps n s = .next t) :
    t.cfg = s.cfg ∧ t.pc = BitVec.ofNat 32 (s.pc.toNat + 4 * n) ∧ t.cycle = s.cycle + n ∧ t.mem = s.mem ∧
      t.image = s.image := by
  induction n generalizing s with
  | zero =>
    cases h
    exact ⟨rfl, by simp, rfl, rfl, rfl⟩
  | succ n ih =>
    obtain ⟨u, hstep, hrun⟩ := runSteps_succ_next h
    obtain ⟨ucfg, upc, ucycle, umem, uimage⟩ := step_next_fields hstep
    obtain ⟨hcfg, hpc, hcycle, hmem, himage⟩ := ih hrun
    refine ⟨hcfg.trans ucfg, ?_, by omega, hmem.trans umem, himage.trans uimage⟩
    rw [hpc, upc]
    apply BitVec.eq_of_toNat_eq
    simp only [BitVec.toNat_ofNat, BitVec.toNat_add]
    omega

/-- Settles O6: a permissive run completes, its fields are those of `runSteps_next_fields`, and the fetch reads the
memory the run started with. -/
theorem runOfStepsIsStraightLine : Obligations.RunOfStepsIsStraightLine := by
  unfold Obligations.RunOfStepsIsStraightLine
  intro n s hs
  obtain ⟨t, hrun⟩ := runSteps_permissive_next hs n
  obtain ⟨hcfg, hpc, hcycle, hmem, himage⟩ := runSteps_next_fields hrun
  refine ⟨t, hrun, by rw [hpc, BitVec.toNat_ofNat], hcycle, hmem, himage, hcfg, ?_⟩
  rw [State.fetchWord, memRead_congr hcfg hmem, hpc]

/-- Settles O7: a run of `n` steps adds `4 * n` to `pc`, and 4 divides 2^32. -/
theorem pcKeepsResidueModFour : Obligations.PcKeepsResidueModFour := by
  unfold Obligations.PcKeepsResidueModFour
  intro n s t hrun
  obtain ⟨-, hpc, -⟩ := runSteps_next_fields hrun
  rw [hpc, BitVec.toNat_ofNat]
  omega

end Sys2Proof.Machine

/-! ### Strict mode: the fault repeats (R88) and the defined instructions do not see the mode (R83) -/

namespace Sys2Proof.Machine

/-- An operation that leaves the state it was given, done `n` times, leaves it and gives the same reply each time. -/
theorem performAll_replicate {op : HostOp} {s : State} {r : Reply} (h : perform op s = (s, r)) (n : Nat) :
    performAll (List.replicate n op) s = (s, List.replicate n r) := by
  induction n with
  | zero => rfl
  | succ n ih => simp only [List.replicate_succ, performAll, h, ih]

/-- Settles O16: the faulting `STEP` leaves the prior state, so it can only be repeated. -/
theorem strictFaultLeavesStateAndRepeats : Obligations.StrictFaultLeavesStateAndRepeats := by
  unfold Obligations.StrictFaultLeavesStateAndRepeats
  intro s hstrict hundef
  have hfault := step_undef_strict hstrict hundef
  exact ⟨hfault, performAll_replicate (perform_step_fault hfault)⟩

@[simp] theorem readGpr_withStrict (s : State) (b : Bool) (i : RegIndex) : (s.withStrict b).readGpr i = s.readGpr i := rfl

@[simp] theorem memRead_withStrict (s : State) (b : Bool) (v : Word) : (s.withStrict b).memRead v = s.memRead v := rfl

@[simp] theorem fetchWord_withStrict (s : State) (b : Bool) : (s.withStrict b).fetchWord = s.fetchWord := rfl

theorem writeGpr_withStrict (s : State) (b : Bool) (i : RegIndex) (v : Word) :
    (s.withStrict b).writeGpr i v = (s.writeGpr i v).withStrict b := by
  have hwired : isHardwired (s.withStrict b).cfg i = isHardwired s.cfg i := rfl
  simp only [State.writeGpr, hwired]
  split <;> rfl

/-- Phase 3 of ADDI, LW and ADD commutes with a change of `STRICT_MODE`: only UNDEF reads the parameter. -/
theorem exec_withStrict {i : Instr} (hi : ∀ w, i ≠ .undef w) (s : State) (b : Bool) :
    exec i (s.withStrict b) = mapNext (·.withStrict b) (exec i s) := by
  cases i with
  | addi rs rt imm => simp only [exec_addi, mapNext, readGpr_withStrict, writeGpr_withStrict]
  | lw rs rt imm =>
    simp only [exec_lw, mapNext, State.effectiveAddress, readGpr_withStrict, memRead_withStrict, writeGpr_withStrict]
  | add rs rt rd => simp only [exec_add, mapNext, readGpr_withStrict, writeGpr_withStrict]
  | undef w => exact absurd rfl (hi w)

/-- So does the whole step at a word outside the catch-all row: the other phases do not read the parameter either. -/
theorem step_withStrict {s : State} (h : matchesUndef s.fetchWord = false) (b : Bool) :
    step (s.withStrict b) = mapNext (·.withStrict b) (step s) := by
  have hi : ∀ w, decodeWord s.fetchWord ≠ .undef w := fun w hw => by
    rw [(undef_of_decodeWord hw).2] at h; cases h
  simp only [step, fetchWord_withStrict, exec_withStrict hi]
  cases exec (decodeWord s.fetchWord) s <;> rfl

/-- Settles O17: phase 3 and the step each commute with a change of the parameter. -/
theorem strictModeKeepsDefinedInstructions : Obligations.StrictModeKeepsDefinedInstructions := by
  unfold Obligations.StrictModeKeepsDefinedInstructions
  exact fun s b => ⟨fun _ hi => exec_withStrict hi s b, fun h => step_withStrict h b⟩

end Sys2Proof.Machine

/-! ### Address translation and the limits of RAM (R29, R30) -/

namespace Sys2Proof.Machine

/-- Settles O21: each of the two ranges misses R30's condition on one side. -/
theorem outOfRangeReadsZeroAndDropsWrites : Obligations.OutOfRangeReadsZeroAndDropsWrites := by
  unfold Obligations.OutOfRangeReadsZeroAndDropsWrites
  intro s v w hv
  have hout : inRange s.cfg v = false := (inRange_eq_false_iff s.cfg v).mpr (by omega)
  exact ⟨memRead_outOfRange hout, memWrite_outOfRange hout⟩

/-- In range the subtraction modulo 2^32 does not wrap (D20). -/
theorem sub_ksegBase_toNat {c : Config} {v : Word} (h : inRange c v = true) :
    (v - c.ksegBase).toNat = physIndex c v := by
  obtain ⟨hbase, -⟩ := (inRange_iff c v).mp h
  rw [physIndex_eq, BitVec.toNat_sub_of_le (BitVec.le_def.mpr hbase)]

theorem physIndex_inj {c : Config} {v v' : Word} (h : inRange c v = true) (h' : inRange c v' = true)
    (heq : physIndex c v = physIndex c v') : v = v' := by
  obtain ⟨hbase, -⟩ := (inRange_iff c v).mp h
  obtain ⟨hbase', -⟩ := (inRange_iff c v').mp h'
  rw [physIndex_eq, physIndex_eq] at heq
  exact BitVec.eq_of_toNat_eq (by omega)

/-- Under the constraints of R5 the range test may be made on the difference modulo 2^32: an address below the base
wraps to one past the end of RAM. -/
theorem inRange_iff_sub {c : Config} (hc : c.wf = true) (v : Word) :
    inRange c v = true ↔ (v - c.ksegBase).toNat + 4 ≤ c.memSize := by
  obtain ⟨-, htop, -⟩ := (config_wf_iff c).mp hc
  refine ⟨fun h => by rw [sub_ksegBase_toNat h]; exact physIndex_add_four_le h, fun h => ?_⟩
  have hv := v.isLt
  rw [BitVec.toNat_sub] at h
  rw [inRange_iff]
  omega

/-- Settles O22: the offset of an in-range address is its distance from the base, which stays inside RAM and
determines it. -/
theorem translationIsInjectiveAndMayWrap : Obligations.TranslationIsInjectiveAndMayWrap := by
  unfold Obligations.TranslationIsInjectiveAndMayWrap
  exact fun c v => ⟨fun h => ⟨physIndex_add_four_le h, sub_ksegBase_toNat h, fun _ => physIndex_inj h⟩,
    fun hc => inRange_iff_sub hc v⟩

/-- Settles O23: the fetch is a read at the address just written, and the write has left `pc` and `cycle` alone. -/
theorem writeIsSeenByNextFetch : Obligations.WriteIsSeenByNextFetch := by
  unfold Obligations.WriteIsSeenByNextFetch
  intro s w hwf hbacked t
  have hpc : t.pc = s.pc := s.memWrite_pc s.pc w
  have hcycle : t.cycle = s.cycle := s.memWrite_cycle s.pc w
  have hfetch : t.fetchWord = w := by
    rw [State.fetchWord, hpc]
    exact memRead_memWrite hwf ((backed_iff s.cfg s.pc).mp hbacked)
  refine ⟨hfetch, ?_⟩
  rw [step_eq_mapNext_exec, hfetch, hpc, hcycle]

end Sys2Proof.Machine

/-! ### Register 0 under its parameter (R15) -/

namespace Sys2Proof.Machine

/-- A hard-wired register 0 reads 0. -/
theorem readGpr_hardwired_zero {s : State} (h : s.cfg.zeroRegHardwired = true) : s.readGpr 0 = 0#32 :=
  if_pos ((isHardwired_iff s.cfg 0).mpr ⟨h, rfl⟩)

/-- A write to a hard-wired register 0 has no effect at all. -/
theorem writeGpr_hardwired_zero {s : State} (h : s.cfg.zeroRegHardwired = true) (v : Word) : s.writeGpr 0 v = s :=
  if_pos ((isHardwired_iff s.cfg 0).mpr ⟨h, rfl⟩)

theorem readGpr_writeGpr_of_ne {s : State} {i j : RegIndex} (h : j ≠ i) (v : Word) :
    (s.writeGpr i v).readGpr j = s.readGpr j := by
  rw [readGpr_writeGpr, if_neg fun hw => h hw.1]

/-- A snapshot has its 33 words, so the default of a lookup of word 0 does not show. -/
theorem snapshot_word_zero (s : State) (d : Word) : s.snapshot.words.getD 0 d = s.readGpr 0 := by
  have hlen : 0 < s.snapshot.words.length := by rw [snapshot_words_length]; decide
  rw [← snapshot_word_reg s 0, List.getD_eq_getElem _ _ hlen]
  exact (List.getD_eq_getElem _ _ hlen).symm

/-- Settles O24: the read after a write by `readGpr_writeGpr_self` at the register written, by
`readGpr_writeGpr_of_ne` at the others; a hard-wired register 0 reads 0 and drops writes. -/
theorem registerZeroFollowsItsParameter : Obligations.RegisterZeroFollowsItsParameter := by
  unfold Obligations.RegisterZeroFollowsItsParameter
  refine fun s v => ⟨fun hwired => ⟨readGpr_hardwired_zero hwired, ?_, fun j => ?_⟩, fun hwired => ?_, fun i hi => ?_,
    fun i j hj => readGpr_writeGpr_of_ne hj v⟩
  · rw [snapshot_word_zero, readGpr_hardwired_zero hwired]
  · rw [writeGpr_hardwired_zero hwired]
  · rw [readGpr_writeGpr_self, if_neg (by simp [hwired])]
  · rw [readGpr_writeGpr_self, if_neg fun hz => hi hz.2]

end Sys2Proof.Machine

/-! ### Image load and reset (R102, R104 to R106, R115) -/

namespace Sys2Proof.Machine

/-- Every byte after an image load, with the copied length in numbers (R104, R106). -/
theorem readByte_loadImage {s : State} (hwf : Memory.wf s.mem = true) (img : List Byte) (a : Nat) :
    readByte (s.loadImage img).mem a =
      if a < min img.length (min 4096 s.cfg.memSize) then img.getD a 0#8 else readByte s.mem a :=
  readByte_bootTransfer (s := s.setImage (some img)) hwf img a

/-- Settles O32: the fields of a boot transfer, and its bytes by `readByte_loadImage`. -/
theorem loadImageCopiesPrefixAndKeepsRest : Obligations.LoadImageCopiesPrefixAndKeepsRest := by
  unfold Obligations.LoadImageCopiesPrefixAndKeepsRest
  exact fun s img hwf => ⟨rfl, rfl, rfl, rfl, rfl, readByte_loadImage hwf img⟩

/-- Settles O31: without an image `RESET` is a new instance, with one it is an image load onto a new instance. -/
theorem resetReplaysBootTransfer : Obligations.ResetReplaysBootTransfer := by
  unfold Obligations.ResetReplaysBootTransfer
  intro s t
  cases himg : s.image with
  | none =>
    have ht : t = State.fresh s.cfg := resetOp_none himg
    rw [ht]
    exact ⟨rfl, rfl, readGpr_fresh s.cfg, rfl, fun _ => ⟨rfl, fun _ => rfl⟩, fun _ h => nomatch h⟩
  | some img =>
    have ht : t = (State.fresh s.cfg).loadImage img := resetOp_some himg
    rw [ht]
    refine ⟨rfl, rfl, fun i => (readGpr_congr rfl rfl i).trans (readGpr_fresh s.cfg i), rfl, (fun h => nomatch h), ?_⟩
    rintro _ ⟨rfl⟩
    exact ⟨rfl, readByte_loadImage (s := State.fresh s.cfg) rfl img⟩

/-- `KSEG_BASE` is physical offset 0 (R29). -/
theorem physIndex_ksegBase (c : Config) : physIndex c c.ksegBase = 0 := by rw [physIndex_eq, Nat.sub_self]

/-- Settles O33: `pc` is the base, which is physical offset 0, and the bytes there are the first four of the image. -/
theorem bootRunsFirstImageWord : Obligations.BootRunsFirstImageWord := by
  unfold Obligations.BootRunsFirstImageWord
  intro s b0 b1 b2 b3 rest hinv t
  obtain ⟨hc, hwf, -⟩ := hinv
  obtain ⟨hsize, -⟩ := (config_wf_iff s.cfg).mp hc
  have hin : inRange t.cfg t.pc = true := (inRange_iff s.cfg s.cfg.ksegBase).mpr (by omega)
  have hbyte : ∀ k < 4, readByte t.mem k = (b0 :: b1 :: b2 :: b3 :: rest).getD k 0#8 :=
    fun k hk => (readByte_loadImage hwf _ k).trans (if_pos (by simp only [List.length_cons]; omega))
  have hphys : physIndex t.cfg t.pc = 0 := physIndex_ksegBase s.cfg
  refine ⟨rfl, ?_⟩
  rw [State.fetchWord, memRead_inRange hin, wordOfBytes_toNat, hphys, hbyte 0 (by decide), hbyte (0 + 1) (by decide),
    hbyte (0 + 2) (by decide), hbyte (0 + 3) (by decide)]
  rfl

end Sys2Proof.Machine

/-! ### Snapshot and restore (R108, R109) -/

namespace Sys2Proof.Machine

/-- An instance stores what its registers read as, register 0 too (D24). -/
theorem reg_eq_readGpr {s : State} (h : s.Inv) (i : RegIndex) : s.regs[i] = s.readGpr i := by
  obtain ⟨-, -, -, hzero⟩ := h
  by_cases hi : isHardwired s.cfg i = true
  · obtain ⟨hwired, rfl⟩ := (isHardwired_iff s.cfg i).mp hi
    rw [readGpr_hardwired_zero hwired, hzero hwired]
  · rw [State.readGpr, if_neg hi]

/-- A restore of an instance's own snapshot, onto any instance with the same parameters, gives the captured state but
for `IMAGE` (R109, D14). -/
theorem replaceBy_snapshot {s t : State} (h : s.Inv) (hcfg : t.cfg = s.cfg) :
    t.replaceBy s.snapshot = s.setImage t.image := by
  have hreg : ∀ i : RegIndex, (t.replaceBy s.snapshot).regs[i] = s.regs[i] := fun i => by
    rw [replaceBy_reg, snapshot_word_reg, hcfg, reg_eq_readGpr h]
    split
    case isTrue hi => rw [State.readGpr, if_pos hi]
    case isFalse => rfl
  obtain ⟨-, hwf, hsize, -⟩ := h
  exact State.ext_fields ((replaceBy_cfg t _).trans hcfg) hreg (snapshot_word_pc s) rfl
    (Memory.writeBytes_readBytes hwf hsize) (replaceBy_image t _)

theorem snapshot_fits (s : State) : s.snapshot.fits s.cfg = true :=
  (fits_iff _ _).mpr ⟨snapshot_words_length s, Memory.length_readBytes s.mem 0 s.cfg.memSize⟩

/-- `RESTORE` of an instance's own snapshot, as the host invokes it. -/
theorem perform_restore_snapshot {s t : State} (h : s.Inv) (hcfg : t.cfg = s.cfg) :
    perform (.restore s.snapshot) t = (s.setImage t.image, .done) := by
  rw [perform_restore_fits (hcfg ▸ snapshot_fits s), replaceBy_snapshot h hcfg]

/-- Settles O34: the content of a snapshot by its lookup lemmas, and `perform_restore_snapshot`, on the same instance
and on any other. -/
theorem restoreOfSnapshotIsExact : Obligations.RestoreOfSnapshotIsExact := by
  unfold Obligations.RestoreOfSnapshotIsExact
  refine fun s => ⟨rfl, snapshot_words_length s, snapshot_word_reg s, snapshot_word_pc s, rfl,
    Memory.length_readBytes s.mem 0 s.cfg.memSize, fun a ha => ?_,
    fun h => ⟨perform_restore_snapshot h rfl, fun _ hcfg => perform_restore_snapshot h hcfg⟩⟩
  rw [snapshot_bytes, Memory.getD_readBytes s.mem 0 s.cfg.memSize a ha, Nat.zero_add]

/-- A register after `RESTORE`, as an instruction reads it: a hard-wired register 0 reads 0 (D24). -/
theorem readGpr_replaceBy (s : State) (p : Snapshot) (i : RegIndex) :
    (s.replaceBy p).readGpr i =
      if s.cfg.zeroRegHardwired = true ∧ i = 0 then 0#32 else p.words.getD i.val 0#32 := by
  rw [State.readGpr, replaceBy_cfg, replaceBy_reg]
  simp only [isHardwired_iff]
  split <;> rfl

/-- A block written from offset 0 into empty memory is all there is to read. -/
theorem readByte_writeBytes_nil (bytes : List Byte) (a : Nat) : readByte (writeBytes [] 0 bytes) a = bytes.getD a 0#8 := by
  rw [Memory.readByte_writeBytes 0 bytes a rfl]
  split
  case isTrue => rw [Nat.sub_zero]
  case isFalse h => exact (List.getD_eq_default bytes 0#8 (by omega)).symm

/-- Settles O35: a snapshot of the right shape fits, and `replaceBy` takes every field from it. -/
theorem restoreReplacesCapturedState : Obligations.RestoreReplacesCapturedState := by
  unfold Obligations.RestoreReplacesCapturedState
  intro s p hwords hbytes
  rw [perform_restore_fits ((fits_iff p s.cfg).mpr ⟨hwords, hbytes⟩)]
  exact ⟨rfl, readGpr_replaceBy s p, rfl, rfl, readByte_writeBytes_nil p.bytes, replaceBy_image s p, replaceBy_cfg s p⟩

end Sys2Proof.Machine

/-! ### Post-step mutators (R114) -/

namespace Sys2Proof.Machine

/-- After a completed step the enabled mutators run in order (log entry 23). -/
theorem performStepWith_next {s t : State} (h : step s = .next t) (ms : List (State → Nat → Mutation)) :
    performStepWith ms s = (ms.foldl (fun u f => u.mutate (f u u.cycle)) t, .done) := by
  simp only [performStepWith, perform_step_next h]

/-- After a faulting step none runs (log entry 23). -/
theorem performStepWith_fault {s : State} {f : Fault} (h : step s = .fault f) (ms : List (State → Nat → Mutation)) :
    performStepWith ms s = (s, .stepFault f) := by
  simp only [performStepWith, perform_step_fault h]

/-- Settles O40: a mutation keeps what `mutate_fields` says, a list of them what `mutators_fields` says, and the empty
list is the identity on either outcome of the step. -/
theorem mutatorsNeverAlterPc : Obligations.MutatorsNeverAlterPc := by
  unfold Obligations.MutatorsNeverAlterPc
  refine ⟨fun s d => ?_, fun ms s => ?_, fun s => ?_⟩
  · obtain ⟨hcfg, hpc, hcycle, himage, -⟩ := mutate_fields s d
    exact ⟨rfl, hpc, hcycle, himage, hcfg⟩
  · rcases step_next_or_fault s with ⟨t, h⟩ | ⟨f, h⟩
    · obtain ⟨-, hpc, -⟩ := mutators_fields ms t
      rw [performStepWith_next h, perform_step_next h]
      exact ⟨hpc, rfl⟩
    · rw [performStepWith_fault h, perform_step_fault h]
      exact ⟨rfl, rfl⟩
  · rcases step_next_or_fault s with ⟨t, h⟩ | ⟨f, h⟩
    · rw [performStepWith_next h, perform_step_next h, List.foldl_nil]
    · rw [performStepWith_fault h, perform_step_fault h]

end Sys2Proof.Machine

/-! ### Assembler forms and pseudo-instructions (R60, R61) -/

namespace Sys2Proof.Machine

theorem asmImm_inRange {n : Int} (h : -32768 ≤ n ∧ n ≤ 32767) : asmImm n = some (BitVec.ofInt 16 n) := if_pos h

theorem asmImm_outOfRange {n : Int} (h : ¬(-32768 ≤ n ∧ n ≤ 32767)) : asmImm n = none := if_neg h

/-- The addi form as an encoded instruction, where its immediate has 16 bits. -/
theorem assemble_addi (rt rs : RegIndex) (n : Int) :
    (AsmLine.addi rt rs n).assemble = (asmImm n).map fun imm => encode (.addi rs rt imm) := Option.map_map ..

theorem assemble_lw (rt rs : RegIndex) (n : Int) :
    (AsmLine.lw rt n rs).assemble = (asmImm n).map fun imm => encode (.lw rs rt imm) := Option.map_map ..

/-- Settles O44: the forms assemble to the encoded instruction, whose number the encoder's laws give. -/
theorem assembledWordsHaveTheirBits : Obligations.AssembledWordsHaveTheirBits := by
  unfold Obligations.AssembledWordsHaveTheirBits
  refine fun ra rb rc n => ⟨fun hn => ⟨⟨encode (.addi rb ra (BitVec.ofInt 16 n)), ?_, ?_⟩,
    ⟨encode (.lw rb ra (BitVec.ofInt 16 n)), ?_, ?_⟩⟩, fun hn => ⟨?_, ?_⟩, _, rfl, encode_add_toNat rb rc ra⟩
  · rw [assemble_addi, asmImm_inRange hn, Option.map_some]
  · rw [encode_addi_toNat, BitVec.toNat_ofInt]; rfl
  · rw [assemble_lw, asmImm_inRange hn, Option.map_some]
  · rw [encode_lw_toNat, BitVec.toNat_ofInt]; rfl
  · rw [assemble_addi, asmImm_outOfRange hn, Option.map_none]
  · rw [assemble_lw, asmImm_outOfRange hn, Option.map_none]

/-- A number the assembler accepts is the signed value of its 16 bits. -/
theorem toInt_ofInt_of_inRange {n : Int} (h : -32768 ≤ n ∧ n ≤ 32767) : (BitVec.ofInt 16 n).toInt = n := by
  obtain ⟨hlow, hhigh⟩ := h
  exact BitVec.toInt_ofInt_eq_self (by decide) hlow (by omega)

/-- `li`: ADDI of a constant to a register that reads 0 (R61). -/
theorem exec_addi_zero {s : State} (hzero : s.readGpr 0 = 0#32) (ra : RegIndex) {n : Int}
    (hn : -32768 ≤ n ∧ n ≤ 32767) :
    exec (.addi 0 ra (BitVec.ofInt 16 n)) s = .next (s.writeGpr ra (BitVec.ofInt 32 n)) := by
  rw [exec_addi, hzero, toInt_ofInt_of_inRange hn, BitVec.toNat_zero, Int.natCast_zero, Int.zero_add]

/-- `move`: ADD of a register to one that reads 0 (R61). -/
theorem exec_add_zero {s : State} (hzero : s.readGpr 0 = 0#32) (ra rb : RegIndex) :
    exec (.add rb 0 ra) s = .next (s.writeGpr ra (s.readGpr rb)) := by
  rw [exec_add, hzero, BitVec.toNat_zero, Nat.add_zero, BitVec.ofNat_toNat, BitVec.setWidth_eq]

/-- Settles O45: `li` and `move` are each one register write, of the value `exec_addi_zero` and `exec_add_zero` give;
`nop` is the UNDEF word 0. -/
theorem pseudoInstructionsUnderZero : Obligations.PseudoInstructionsUnderZero := by
  unfold Obligations.PseudoInstructionsUnderZero
  intro s ra rb n hzero hn
  have hli : (AsmLine.li ra n).instr = some (.addi 0 ra (BitVec.ofInt 16 n)) := by
    rw [AsmLine.instr, asmImm_inRange hn, Option.map_some]
  obtain ⟨t, hexec, hframe, hreg⟩ := exec_completes_of_writeGpr (exec_addi_zero hzero ra hn)
  obtain ⟨u, uexec, uframe, ureg⟩ := exec_completes_of_writeGpr (exec_add_zero hzero ra rb)
  exact ⟨⟨_, t, hli, hexec, hframe, hreg⟩, ⟨_, u, rfl, uexec, uframe, ureg⟩,
    _, rfl, rfl, fun hs => exec_undef_permissive hs _, fun hs => exec_undef_strict hs _⟩

end Sys2Proof.Machine
